-- ==== Sys2Proof/Word.lean ====
section
/-! DEFINITION. The machine's bit-vector types (00_scope.md R8, R9; 30_encoding.md R81). -/

namespace Sys2Proof

/-- A byte of memory, a general register, or the immediate `NN` (10_state.md R21, 30_encoding.md R81). -/
abbrev Byte := BitVec 8

/-- The program counter, the index register, a stack slot, the key mask, an instruction word. -/
abbrev Word := BitVec 16

/-- A register number `X` or `Y`, or the field `N` (30_encoding.md R81). -/
abbrev Nibble := BitVec 4

/-- The address literal `NNN` (30_encoding.md R81). -/
abbrev Addr12 := BitVec 12

end Sys2Proof
end

