-- ==== Sys2Proof/Config.lean ====
section
/-! DEFINITION. What is fixed for one machine (the parameters of 00_scope.md R6 and their constraints R7) and the
free byte behind the random port (41_immediate_index_random.md R124). -/

namespace Sys2Proof

/-- The named parameters of 00_scope.md R6. NREG and STACK_CAP are fixed at 16 by the same rule. -/
structure Config where
  /-- MEM_SIZE: addresses are [0, MEM_SIZE). -/
  memSize : Nat
  /-- PROG_ORIGIN: first byte of the program region, reset value of PC. -/
  progOrigin : Nat
  /-- FB_ORIGIN: first byte of the framebuffer region [FB_ORIGIN, MEM_SIZE). -/
  fbOrigin : Nat
  /-- FB_WIDTH: pixels per framebuffer row. -/
  fbWidth : Nat
  deriving DecidableEq, Repr

/-- The defaults of 00_scope.md R6 (the spec's decisions D1 to D4; log 2). -/
def Config.default : Config :=
  { memSize := 0x1000, progOrigin := 0x200, fbOrigin := 0xF00, fbWidth := 64 }

/-- FB_HEIGHT, derived: (MEM_SIZE − FB_ORIGIN) × 8 ÷ FB_WIDTH (00_scope.md R6, 20_memory.md R57). -/
def Config.fbHeight (c : Config) : Nat := (c.memSize - c.fbOrigin) * 8 / c.fbWidth

/-- The constraints (a) to (d) of 00_scope.md R7. -/
abbrev Config.Valid (c : Config) : Prop :=
  (c.progOrigin < c.fbOrigin ∧ c.fbOrigin < c.memSize)
    ∧ (c.memSize ≤ 65536 ∧ c.memSize - 2 ≤ 0xFFF)
    ∧ c.progOrigin % 2 = 0
    ∧ (0 < c.fbWidth ∧ c.fbWidth % 8 = 0 ∧ (c.memSize - c.fbOrigin) * 8 % c.fbWidth = 0)

/-- FREE VALUE (41_immediate_index_random.md R124, D16): the byte the random port delivers at its n-th draw when the
host has supplied none in advance. It has no body, so nothing can be proved about its value (log 3). -/
opaque Config.freeRandByte : Nat → Byte

end Sys2Proof
end

