-- ==== Sys2Proof/Machine/State.lean ====
section
/-! DEFINITION. The machine's state as plain data (10_state.md R20), its faults and refusals, and the state after
reset (R38). -/

namespace Sys2Proof.Machine

/-- RUN (10_state.md R34). -/
inductive RunState where
  | running
  | halted
  | faulted
  deriving DecidableEq, Repr

/-- Direction of a transfer, part of a fault's detail (60_exceptions.md R179). -/
inductive Direction where
  | write
  | read
  deriving DecidableEq, Repr

/-- The five step faults of 60_exceptions.md R177 with the details of R179. The FAULT record of the state holds one
(10_state.md R35). Raising a fault has an effect the spec describes (R178: the step undone, RUN FAULTED, the fault
recorded), so a meaning answers it as a NEXT state and no step of this model answers `Outcome.fault` (log 4). -/
inductive Fault where
  /-- Raised by the fetch of any step when PC or PC + 1 is outside memory; `addr` is the address whose check failed.
  Safe: the spec's own fault. -/
  | outOfBoundsFetch (pc0 : Word) (addr : Nat)
  /-- Raised by FX55 (write), FX65 and DXYN (read) when an address to transfer is outside memory.
  Safe: the spec's own fault. -/
  | outOfBoundsTransfer (pc0 : Word) (dir : Direction) (base : Word) (count : Nat)
  /-- Raised by 2NNN when SP = 16. Safe: the spec's own fault (the capacity is decision D6, log 9). -/
  | stackOverflow (pc0 : Word)
  /-- Raised by 00EE when SP = 0. Safe: the spec's own fault. -/
  | stackUnderflow (pc0 : Word)
  /-- Raised by the decode of any illegal word (30_encoding.md R88). Safe: the spec's own fault. -/
  | unrecognizedInstruction (pc0 : Word) (w : Word)
  deriving DecidableEq, Repr

/-- The six fault kinds of 60_exceptions.md R177: the five a step can raise, and LoadOverflow of the host's `load`
alone. -/
inductive FaultKind where
  | outOfBoundsFetch
  | outOfBoundsTransfer
  | stackOverflow
  | stackUnderflow
  | unrecognizedInstruction
  | loadOverflow
  deriving DecidableEq, Repr

/-- Why the model gives a step or a host operation no meaning. -/
inductive Refusal where
  /-- Raised by an arm of `exec` for an instruction that has no meaning yet. Safe: nothing runs. No arm does. -/
  | notModelled (mnemonic : String)
  /-- Raised by `step`, by `createCore` and by every host transaction when the configuration breaks a constraint of
  00_scope.md R7: "a configuration that breaks one is refused by the model". Safe: nothing runs. -/
  | invalidConfiguration
  deriving DecidableEq, Repr

/-- Memory as (address, byte) pairs in canonical form: addresses strictly rising, no entry equal to what an unlisted
address reads as (`Memory.wf` in Machine/Ops.lean). -/
abbrev Memory := List Host.Cell

/-- The complete mutable state of one core (10_state.md R20), and three fields of the model's own: `cfg`,
`randQueue`, `randDrawn` (log 1, log 3). -/
structure State where
  /-- The configuration; R37 calls it configuration, not state. Nothing changes it (log 1). -/
  cfg : Config
  /-- M (R33). -/
  mem : Memory
  /-- V0 to VF; VF is the flags register (R21, R22). -/
  v : Vector Byte 16
  /-- I (R26). -/
  i : Word
  /-- PC (R23). -/
  pc : Word
  /-- S[0..15] (R27). -/
  stack : Vector Word 16
  /-- SP: how many return addresses are held, 0 to 16 (R28). -/
  sp : Fin 17
  /-- DT (R30). -/
  dt : Byte
  /-- ST (R30). -/
  st : Byte
  /-- KEYS: bit k is key number k (R31). -/
  keys : Word
  /-- RUN (R34). -/
  run : RunState
  /-- FAULT (R35). -/
  fault : Option Fault
  /-- Random bytes the host has supplied and the core has not yet drawn (41_immediate_index_random.md R124). -/
  randQueue : List Byte
  /-- How many bytes the core has drawn from the random port. -/
  randDrawn : Nat
  deriving DecidableEq, Repr

/-- The outcome of executing one instruction or one step. -/
abbrev Result := Host.Outcome State Fault Refusal

/-- The reset state of a machine of configuration `c` (10_state.md R38, 70_reset_and_hazards.md R200). Memory lists
nothing: every byte reads 0. -/
def State.resetWith (c : Config) : State :=
  { cfg := c
    mem := []
    v := Vector.replicate 16 0
    i := 0
    pc := BitVec.ofNat 16 c.progOrigin
    stack := Vector.replicate 16 0
    sp := 0
    dt := 0
    st := 0
    keys := 0
    run := .running
    fault := none
    randQueue := []
    randDrawn := 0 }

/-- The machine right after reset, with the default parameters of 00_scope.md R6 (log 2). -/
def State.reset : State := State.resetWith Config.default

end Sys2Proof.Machine
end

