-- ==== Sys2Proof/Machine/Ops.lean ====
section
/-! DEFINITION. The named operations over memory, the program counter, the call stack, the random port, and raising
a fault (10_state.md R25, R29; 20_memory.md R50, R61; 60_exceptions.md R178). -/

namespace Sys2Proof.Machine

/-! ## Memory -/

/-- What an address that memory does not list reads as: the reset contents, 0 in every byte (10_state.md R38). -/
def unlistedByte : Byte := 0

/-- Memory is in canonical form: addresses strictly rising, no entry that an unlisted address already reads as. -/
abbrev Memory.wf (m : Memory) : Prop :=
  m.Pairwise (fun c d => c.1 < d.1) ∧ ∀ c ∈ m, c.2 ≠ unlistedByte

/-- M[a] (00_scope.md R9). The rules check the bound before they read. -/
def memRead : Memory → Nat → Byte
  | [], _ => unlistedByte
  | (b, u) :: m, a => if b = a then u else memRead m a

/-- Memory without any entry for `a`. -/
def memErase (m : Memory) (a : Nat) : Memory := m.filter (fun c => c.1 ≠ a)

/-- Memory with an entry for `a` put before the first entry of a higher address. -/
def memInsert : Memory → Nat → Byte → Memory
  | [], a, v => [(a, v)]
  | (b, u) :: m, a, v => if a < b then (a, v) :: (b, u) :: m else (b, u) :: memInsert m a v

/-- M[a] := v, keeping the canonical form: writing the byte an unlisted address reads as removes the entry. -/
def memWrite (m : Memory) (a : Nat) (v : Byte) : Memory :=
  if v = unlistedByte then memErase m a else memInsert (memErase m a) a v

/-- The bytes `bs` written at `a`, `a + 1`, ..., lowest address first (00_scope.md R9, MemWrite). -/
def storeBytes (m : Memory) (a : Nat) : List Byte → Memory
  | [] => m
  | b :: bs => storeBytes (memWrite m a b) (a + 1) bs

/-- The `n` bytes from `a` on, lowest address first (00_scope.md R9, MemRead). -/
def loadBytes (m : Memory) (a n : Nat) : List Byte := (List.range n).map (fun k => memRead m (a + k))

/-! ## Program counter -/

/-- The state after the fetch has advanced PC by 2 (00_scope.md R10, 10_state.md R41). Every meaning starts from it. -/
def advance (s : State) : State := { s with pc := s.pc + 2 }

/-- `pc <- target` (00_scope.md R9). -/
def jumpTo (a : Word) (s : State) : State := { s with pc := a }

/-- A skip that is taken adds 2 to PC (40_control_flow.md R109). -/
def skipIf (taken : Bool) (s : State) : State := { s with pc := if taken then s.pc + 2 else s.pc }

/-! ## Call stack (10_state.md R29) -/

/-- `Push(a)`, or nothing when the stack is full. -/
def pushReturn (a : Word) (s : State) : Option State :=
  if h : s.sp.val < 16 then
    some { s with stack := s.stack.set s.sp.val a h, sp := ⟨s.sp.val + 1, by omega⟩ }
  else none

/-- `Pop()`: the popped address and the state without it, or nothing when the stack is empty. The slot keeps its
value. -/
def popReturn (s : State) : Option (Word × State) :=
  if h : 0 < s.sp.val then
    some (s.stack[s.sp.val - 1]'(by omega), { s with sp := ⟨s.sp.val - 1, by omega⟩ })
  else none

/-! ## Random port (41_immediate_index_random.md R124) -/

/-- The byte the port will deliver next: the oldest one the host has supplied, else a free value. -/
def nextRandByte (s : State) : Byte := s.randQueue.head?.getD (Config.freeRandByte s.randDrawn)

/-- The port after one byte has been drawn. -/
def dropRandByte (s : State) : State :=
  { s with randQueue := s.randQueue.tail, randDrawn := s.randDrawn + 1 }

/-! ## Raising a fault -/

/-- `raise F` (60_exceptions.md R178), applied to the state in which the step began: every effect of the step is
discarded, RUN becomes FAULTED and the fault is recorded. -/
def raiseFault (f : Fault) (s : State) : State := { s with run := .faulted, fault := some f }

/-- The kind of a step fault (60_exceptions.md R177). -/
def faultKind : Fault → FaultKind
  | .outOfBoundsFetch _ _ => .outOfBoundsFetch
  | .outOfBoundsTransfer _ _ _ _ => .outOfBoundsTransfer
  | .stackOverflow _ => .stackOverflow
  | .stackUnderflow _ => .stackUnderflow
  | .unrecognizedInstruction _ _ => .unrecognizedInstruction

/-- The numeric codes of 60_exceptions.md R177, 0 for "none". -/
def kindCode : Option FaultKind → Nat
  | none => 0
  | some .outOfBoundsFetch => 1
  | some .outOfBoundsTransfer => 2
  | some .stackOverflow => 3
  | some .stackUnderflow => 4
  | some .unrecognizedInstruction => 5
  | some .loadOverflow => 6

/-- The numeric code of a FAULT record (60_exceptions.md R177). -/
def faultCode (f : Option Fault) : Nat := kindCode (f.map faultKind)

/-- The pc0 of a fault (60_exceptions.md R179). -/
def faultPc : Fault → Word
  | .outOfBoundsFetch pc0 _ => pc0
  | .outOfBoundsTransfer pc0 _ _ _ => pc0
  | .stackOverflow pc0 => pc0
  | .stackUnderflow pc0 => pc0
  | .unrecognizedInstruction pc0 _ => pc0

end Sys2Proof.Machine
end

