-- ==== Sys2Proof/Machine/Operands.lean ====
section
/-! DEFINITION. Every operand form of the spec: general registers (10_state.md R21), a run of registers and of memory
bytes for the transfers (44_index_memory_transfer.md R160), the key named by a register (10_state.md R32), and the
zero-extended literals (30_encoding.md R82). -/

namespace Sys2Proof.Machine

/-- V[x] (10_state.md R21). -/
def getReg (s : State) (x : Nibble) : Byte := s.v[x.toNat]'x.isLt

/-- V[x] <- b. No register is hardwired (10_state.md R21). -/
def setReg (x : Nibble) (b : Byte) (s : State) : State := { s with v := s.v.set x.toNat b x.isLt }

/-- I <- a (10_state.md R26). -/
def setIndex (a : Word) (s : State) : State := { s with i := a }

/-- NNN as a 16-bit value (30_encoding.md R82). -/
def zextAddr (nnn : Addr12) : Word := nnn.setWidth 16

/-- A byte as a 16-bit value: zero extension (30_encoding.md R82). -/
def zextByte (b : Byte) : Word := b.setWidth 16

/-- KeyDown(k): true when k ≤ 15 and bit k of KEYS is 1 (10_state.md R32). -/
def keyDown (s : State) (k : Byte) : Bool := decide (k.toNat ≤ 15) && s.keys.getLsbD k.toNat

/-- V[0], ..., V[x], in rising order (44_index_memory_transfer.md R161). -/
def regsUpTo (s : State) (x : Nibble) : List Byte := s.v.toList.take (x.toNat + 1)

/-- The register file after V[k] <- M[a + k] for k below `n`, rising (44_index_memory_transfer.md R162). -/
def fillRegs (m : Memory) (a : Nat) (v : Vector Byte 16) : Nat → Vector Byte 16
  | 0 => v
  | n + 1 => (fillRegs m a v n).setIfInBounds n (memRead m (a + n))

/-- The transfer check of 44_index_memory_transfer.md R160 fails: I + X ≥ MEM_SIZE, on unbounded integers. -/
def transferOutside (s : State) (x : Nibble) : Bool := decide (s.cfg.memSize ≤ s.i.toNat + x.toNat)

/-- The sprite check of 43_display_keypad.md R151 fails: N > 0 and I + N − 1 ≥ MEM_SIZE, on unbounded integers. -/
def spriteOutside (s : State) (n : Nibble) : Bool :=
  decide (0 < n.toNat) && decide (s.cfg.memSize ≤ s.i.toNat + n.toNat - 1)

end Sys2Proof.Machine
end

