-- ==== Sys2Proof/Machine/Flags.lean ====
section
/-! DEFINITION. Every flag computation of the spec, and the one way a flag is written (10_state.md R22, 42_alu.md
R131, R140). -/

namespace Sys2Proof.Machine

/-- "A side-effect write always stores 0 or 1" (10_state.md R22). -/
def flagByte (flag : Bool) : Byte := if flag then 1 else 0

/-- VF <- flag. -/
def setFlag (flag : Bool) (s : State) : State := setReg 0xF (flagByte flag) s

/-- The exact sum exceeds 255 (42_alu.md R134). -/
def carryOut (a b : Byte) : Bool := decide (255 < a.toNat + b.toNat)

/-- The strict test of SUB, V[X] > V[Y], and, its operands exchanged, of SUBN (42_alu.md R135, R137). -/
def greaterThan (a b : Byte) : Bool := decide (b.toNat < a.toNat)

/-- Bit 0 before a right shift (42_alu.md R136). -/
def lowBit (a : Byte) : Bool := a.getLsbD 0

/-- Bit 7 before a left shift (42_alu.md R138). -/
def highBit (a : Byte) : Bool := a.getLsbD 7

/-- The common end of the five flag-writing ALU operations: V[X] <- result, then VF <- flag, so that the flag stays
when X = 15 (42_alu.md R131). -/
def writeResultAndFlag (x : Nibble) (result : Byte) (flag : Bool) (s : State) : State :=
  setFlag flag (setReg x result s)

end Sys2Proof.Machine
end

