-- ==== Sys2Proof/Machine/Alu.lean ====
section
/-! DEFINITION. The ALU group (42_alu.md R130 to R140). Both operands are read before anything is written, and the
flag is written last (R131). -/

namespace Sys2Proof.Machine

/-- LD VX, VY (R130). -/
def execLdReg (x y : Nibble) (s : State) : Result := .next (setReg x (getReg s y) (advance s))

/-- OR VX, VY (R132): VF is not touched. -/
def execOrReg (x y : Nibble) (s : State) : Result :=
  .next (setReg x (getReg s x ||| getReg s y) (advance s))

/-- AND VX, VY (R133). -/
def execAndReg (x y : Nibble) (s : State) : Result :=
  .next (setReg x (getReg s x &&& getReg s y) (advance s))

/-- XOR VX, VY (R139). -/
def execXorReg (x y : Nibble) (s : State) : Result :=
  .next (setReg x (getReg s x ^^^ getReg s y) (advance s))

/-- ADD VX, VY (R134): the sum modulo 256, VF the carry. -/
def execAddReg (x y : Nibble) (s : State) : Result :=
  .next (writeResultAndFlag x (getReg s x + getReg s y) (carryOut (getReg s x) (getReg s y)) (advance s))

/-- SUB VX, VY (R135): the difference modulo 256, VF the strict test V[X] > V[Y]. -/
def execSubReg (x y : Nibble) (s : State) : Result :=
  .next (writeResultAndFlag x (getReg s x - getReg s y) (greaterThan (getReg s x) (getReg s y)) (advance s))

/-- SHR VX (R136): V[Y] is not read. -/
def execShr (x _y : Nibble) (s : State) : Result :=
  .next (writeResultAndFlag x (getReg s x >>> 1) (lowBit (getReg s x)) (advance s))

/-- SUBN VX, VY (R137): VF the strict test V[X] < V[Y]. -/
def execSubnReg (x y : Nibble) (s : State) : Result :=
  .next (writeResultAndFlag x (getReg s y - getReg s x) (greaterThan (getReg s y) (getReg s x)) (advance s))

/-- SHL VX (R138): V[Y] is not read. -/
def execShl (x _y : Nibble) (s : State) : Result :=
  .next (writeResultAndFlag x (getReg s x <<< 1) (highBit (getReg s x)) (advance s))

end Sys2Proof.Machine
end

