-- ==== Sys2Proof/Machine/ControlFlow.lean ====
section
/-! DEFINITION. Jumps, call, return and the register skips (40_control_flow.md R100 to R111). Every meaning takes the
state in which the step began (PC is pc0) and starts from `advance` of it. -/

namespace Sys2Proof.Machine

/-- RET (R101). -/
def execRet (s : State) : Result :=
  match popReturn (advance s) with
  | some (a, t) => .next (jumpTo a t)
  | none => .next (raiseFault (.stackUnderflow s.pc) s)

/-- SYS NNN (R100). -/
def execSys (nnn : Addr12) (s : State) : Result := .next (jumpTo (zextAddr nnn) (advance s))

/-- JP NNN (R102). -/
def execJp (nnn : Addr12) (s : State) : Result := .next (jumpTo (zextAddr nnn) (advance s))

/-- CALL NNN (R103): the return address pushed is pc0 + 2. -/
def execCall (nnn : Addr12) (s : State) : Result :=
  match pushReturn (advance s).pc (advance s) with
  | some t => .next (jumpTo (zextAddr nnn) t)
  | none => .next (raiseFault (.stackOverflow s.pc) s)

/-- JP V0, NNN (R104): the sum is not truncated to 12 bits. -/
def execJpV0 (nnn : Addr12) (s : State) : Result :=
  .next (jumpTo (zextAddr nnn + zextByte (getReg s 0)) (advance s))

/-- SE VX, NN (R105). -/
def execSeImm (x : Nibble) (nn : Byte) (s : State) : Result :=
  .next (skipIf (decide (getReg s x = nn)) (advance s))

/-- SNE VX, NN (R106). -/
def execSneImm (x : Nibble) (nn : Byte) (s : State) : Result :=
  .next (skipIf (decide (getReg s x ≠ nn)) (advance s))

/-- SE VX, VY (R107); N is ignored (30_encoding.md R86). -/
def execSeReg (x y _n : Nibble) (s : State) : Result :=
  .next (skipIf (decide (getReg s x = getReg s y)) (advance s))

/-- SNE VX, VY (R108); N is ignored (30_encoding.md R86). -/
def execSneReg (x y _n : Nibble) (s : State) : Result :=
  .next (skipIf (decide (getReg s x ≠ getReg s y)) (advance s))

end Sys2Proof.Machine
end

