-- ==== Sys2Proof/Machine/Framebuffer.lean ====
section
/-! DEFINITION. The framebuffer address translator (20_memory.md R57, R58) and the XOR blit of 43_display_keypad.md
R151. -/

namespace Sys2Proof.Machine

/-- The pixel number n = y × FB_WIDTH + x. -/
def pixelNumber (c : Config) (x y : Nat) : Nat := y * c.fbWidth + x

/-- FbAddr(x, y) (20_memory.md R58). -/
def fbAddr (c : Config) (x y : Nat) : Nat := c.fbOrigin + pixelNumber c x y / 8

/-- FbBit(x, y): bit 7 is the leftmost pixel of a byte (20_memory.md R58). -/
def fbBit (c : Config) (x y : Nat) : Nat := 7 - pixelNumber c x y % 8

/-- Pixel(x, y) (20_memory.md R58). -/
def pixel (c : Config) (m : Memory) (x y : Nat) : Bool := (memRead m (fbAddr c x y)).getLsbD (fbBit c x y)

/-- A byte with bit `k` made `p`, the other bits unchanged. -/
def withBit (b : Byte) (k : Nat) (p : Bool) : Byte :=
  if p then b ||| BitVec.twoPow 8 k else b &&& ~~~ BitVec.twoPow 8 k

/-- SetPixel(x, y, p) (20_memory.md R58). -/
def setPixel (c : Config) (m : Memory) (x y : Nat) (p : Bool) : Memory :=
  memWrite m (fbAddr c x y) (withBit (memRead m (fbAddr c x y)) (fbBit c x y) p)

/-- The framebuffer coordinates of the 1 bits of one sprite byte, left to right: bit 7 is the leftmost pixel, and
every coordinate wraps (43_display_keypad.md R151, R154 (a), (b)). -/
def rowPixels (c : Config) (xs y : Nat) (row : Byte) : List (Nat × Nat) :=
  (List.range 8).filterMap
    (fun k => if row.getLsbD (7 - k) then some ((xs + k) % c.fbWidth, y % c.fbHeight) else none)

/-- The same for all rows, the first byte on top, row `y` first (43_display_keypad.md R151). -/
def spritePixels (c : Config) (xs : Nat) : Nat → List Byte → List (Nat × Nat)
  | _, [] => []
  | y, row :: rows => rowPixels c xs y row ++ spritePixels c xs (y + 1) rows

/-- Invert the pixels listed, in order; the flag tells whether one of them was 1 when it was inverted
(43_display_keypad.md R151, R154 (e)). -/
def blit (c : Config) : List (Nat × Nat) → Memory → Bool → Memory × Bool
  | [], m, hit => (m, hit)
  | (x, y) :: ps, m, hit =>
    blit c ps (setPixel c m x y (!(pixel c m x y))) (hit || pixel c m x y)

/-- The pixels DXYN inverts in state `s`: the sprite bytes are read from the memory as it is before the instruction
(43_display_keypad.md R154 (c)). -/
def drawnPixels (s : State) (x y n : Nibble) : List (Nat × Nat) :=
  spritePixels s.cfg (getReg s x).toNat (getReg s y).toNat (loadBytes s.mem s.i.toNat n.toNat)

/-- Every byte of [FB_ORIGIN, MEM_SIZE) zero (43_display_keypad.md R150). -/
def clearFramebuffer (s : State) : State :=
  { s with mem := storeBytes s.mem s.cfg.fbOrigin (List.replicate (s.cfg.memSize - s.cfg.fbOrigin) 0) }

end Sys2Proof.Machine
end

