-- ==== Sys2Proof/Machine/Display.lean ====
section
/-! DEFINITION. Display and keypad instructions (43_display_keypad.md R150 to R154). -/

namespace Sys2Proof.Machine

/-- CLS (R150). -/
def execCls (s : State) : Result := .next (clearFramebuffer (advance s))

/-- DRW VX, VY, N (R151): the sprite check, then the blit, then VF. -/
def execDrw (x y n : Nibble) (s : State) : Result :=
  if spriteOutside s n then .next (raiseFault (.outOfBoundsTransfer s.pc .read s.i n.toNat) s)
  else
    .next (setFlag (blit s.cfg (drawnPixels s x y n) s.mem false).2
      { advance s with mem := (blit s.cfg (drawnPixels s x y n) s.mem false).1 })

/-- SKP VX (R152): the key is the value of V[X]. -/
def execSkp (x : Nibble) (s : State) : Result := .next (skipIf (keyDown s (getReg s x)) (advance s))

/-- SKNP VX (R153). -/
def execSknp (x : Nibble) (s : State) : Result := .next (skipIf (!(keyDown s (getReg s x))) (advance s))

end Sys2Proof.Machine
end

