-- ==== Sys2Proof/Machine/Immediate.lean ====
section
/-! DEFINITION. Immediate loads, immediate add, the index register, random (41_immediate_index_random.md R120 to
R125). -/

namespace Sys2Proof.Machine

/-- LD VX, NN (R120). -/
def execLdImm (x : Nibble) (nn : Byte) (s : State) : Result := .next (setReg x nn (advance s))

/-- ADD VX, NN (R121): modulo 256, no flag. -/
def execAddImm (x : Nibble) (nn : Byte) (s : State) : Result :=
  .next (setReg x (getReg s x + nn) (advance s))

/-- LD I, NNN (R122). -/
def execLdI (nnn : Addr12) (s : State) : Result := .next (setIndex (zextAddr nnn) (advance s))

/-- ADD I, VX (R123): modulo 65536, no flag. -/
def execAddI (x : Nibble) (s : State) : Result :=
  .next (setIndex (s.i + zextByte (getReg s x)) (advance s))

/-- RND VX, NN (R125): one byte of the random port is drawn, also when NN = 0. -/
def execRnd (x : Nibble) (nn : Byte) (s : State) : Result :=
  .next (setReg x (nn &&& nextRandByte s) (dropRandByte (advance s)))

end Sys2Proof.Machine
end

