-- ==== Sys2Proof/Machine/Transfer.lean ====
section
/-! DEFINITION. Index-memory transfers (44_index_memory_transfer.md R160 to R162). X is a register number, I is left
unchanged. -/

namespace Sys2Proof.Machine

/-- LD [I], VX (R161): all X + 1 bytes or none. -/
def execStoreRegs (x : Nibble) (s : State) : Result :=
  if transferOutside s x then .next (raiseFault (.outOfBoundsTransfer s.pc .write s.i (x.toNat + 1)) s)
  else .next { advance s with mem := storeBytes s.mem s.i.toNat (regsUpTo s x) }

/-- LD VX, [I] (R162): all X + 1 registers or none. -/
def execLoadRegs (x : Nibble) (s : State) : Result :=
  if transferOutside s x then .next (raiseFault (.outOfBoundsTransfer s.pc .read s.i (x.toNat + 1)) s)
  else .next { advance s with v := fillRegs s.mem s.i.toNat s.v (x.toNat + 1) }

end Sys2Proof.Machine
end

