-- ==== Sys2Proof/Syntax.lean ====
section
/-! DEFINITION. The instructions: one constructor per row of spec/opcode_table.json, in the table's order
(30_encoding.md R84). Every operand field of a row is kept, the ignored ones too (R86), so that no bit of a word
is lost. -/

namespace Sys2Proof

/-- The 29 instructions of 30_encoding.md R84. -/
inductive Instr where
  /-- 00E0, clear the framebuffer (R150). -/
  | cls
  /-- 00EE, return (R101). -/
  | ret
  /-- 0NNN other than 00E0 and 00EE: a jump on this hardware (R100). -/
  | sys (nnn : Addr12)
  /-- 1NNN (R102). -/
  | jp (nnn : Addr12)
  /-- 2NNN (R103). -/
  | call (nnn : Addr12)
  /-- 3XNN, skip if V[X] = NN (R105). -/
  | seImm (x : Nibble) (nn : Byte)
  /-- 4XNN, skip if V[X] ≠ NN (R106). -/
  | sneImm (x : Nibble) (nn : Byte)
  /-- 5XYN, skip if V[X] = V[Y]; N is ignored (R107, R86). -/
  | seReg (x y n : Nibble)
  /-- 6XNN (R120). -/
  | ldImm (x : Nibble) (nn : Byte)
  /-- 7XNN (R121). -/
  | addImm (x : Nibble) (nn : Byte)
  /-- 8XY0 (R130). -/
  | ldReg (x y : Nibble)
  /-- 8XY1 (R132). -/
  | orReg (x y : Nibble)
  /-- 8XY2 (R133). -/
  | andReg (x y : Nibble)
  /-- 8XY3 (R139). -/
  | xorReg (x y : Nibble)
  /-- 8XY4, add with carry out (R134). -/
  | addReg (x y : Nibble)
  /-- 8XY5, V[X] − V[Y] (R135). -/
  | subReg (x y : Nibble)
  /-- 8XY6, shift V[X] right; Y is ignored (R136). -/
  | shr (x y : Nibble)
  /-- 8XY7, V[Y] − V[X] (R137). -/
  | subnReg (x y : Nibble)
  /-- 8XYE, shift V[X] left; Y is ignored (R138). -/
  | shl (x y : Nibble)
  /-- 9XYN, skip if V[X] ≠ V[Y]; N is ignored (R108, R86). -/
  | sneReg (x y n : Nibble)
  /-- ANNN (R122). -/
  | ldI (nnn : Addr12)
  /-- BNNN, PC := NNN + V[0] (R104). -/
  | jpV0 (nnn : Addr12)
  /-- CXNN (R125). -/
  | rnd (x : Nibble) (nn : Byte)
  /-- DXYN (R151). -/
  | drw (x y n : Nibble)
  /-- EX9E (R152). -/
  | skp (x : Nibble)
  /-- EXA1 (R153). -/
  | sknp (x : Nibble)
  /-- FX1E (R123). -/
  | addI (x : Nibble)
  /-- FX55, store V[0..X] at M[I..] (R161). -/
  | storeRegs (x : Nibble)
  /-- FX65, load V[0..X] from M[I..] (R162). -/
  | loadRegs (x : Nibble)
  deriving DecidableEq, Repr

end Sys2Proof
end

