-- ==== Sys2Proof/WellFormed.lean ====
section
/-! DEFINITION. Which instructions have an encoding of their own (30_encoding.md R91). -/

namespace Sys2Proof

/-- `SYS NNN` "must not be given NNN = 0x0E0 or 0x0EE, which would assemble to CLS and RET" (30_encoding.md R91);
every value of every other field is legal (R82). -/
def Instr.wellFormed : Instr → Bool
  | .sys nnn => nnn ≠ 0x0E0 && nnn ≠ 0x0EE
  | .cls | .ret | .jp _ | .call _ | .seImm _ _ | .sneImm _ _ | .seReg _ _ _ | .ldImm _ _ | .addImm _ _
  | .ldReg _ _ | .orReg _ _ | .andReg _ _ | .xorReg _ _ | .addReg _ _ | .subReg _ _ | .shr _ _ | .subnReg _ _
  | .shl _ _ | .sneReg _ _ _ | .ldI _ | .jpV0 _ | .rnd _ _ | .drw _ _ _ | .skp _ | .sknp _ | .addI _
  | .storeRegs _ | .loadRegs _ => true

end Sys2Proof
end

