-- ==== Sys2Proof/Decode.lean ====
section
/-! DEFINITION. The decoder (30_encoding.md R80 to R88), the encoder written from the same table, and the opcode
table of R84 as data. -/

namespace Sys2Proof

/-! ## Fields of an instruction word (30_encoding.md R81) -/

/-- Two bytes in the order of memory, the first one high (20_memory.md R52). -/
def wordOfBytes (hi lo : Byte) : Word := hi ++ lo

/-- The first byte of a word in memory: bits 15:8 (20_memory.md R52). -/
def hiByte (w : Word) : Byte := w.extractLsb' 8 8

/-- The second byte of a word in memory: bits 7:0. -/
def loByte (w : Word) : Byte := w.extractLsb' 0 8

/-- C, bits 15:12. -/
def fieldC (w : Word) : Nibble := w.extractLsb' 12 4

/-- X, bits 11:8. -/
def fieldX (w : Word) : Nibble := w.extractLsb' 8 4

/-- Y, bits 7:4. -/
def fieldY (w : Word) : Nibble := w.extractLsb' 4 4

/-- N, bits 3:0. -/
def fieldN (w : Word) : Nibble := w.extractLsb' 0 4

/-- NN, bits 7:0. -/
def fieldNN (w : Word) : Byte := w.extractLsb' 0 8

/-- NNN, bits 11:0. -/
def fieldNNN (w : Word) : Addr12 := w.extractLsb' 0 12

/-! ## Decoding -/

/-- Why bytes are no instruction. -/
inductive DecodeReject where
  /-- Fewer than two bytes: every instruction is exactly two (30_encoding.md R80). -/
  | truncated
  /-- No row of 30_encoding.md R84 matches the word (R88). -/
  | unrecognized (w : Word)
  deriving DecidableEq, Repr

/-- Class 0 is decoded on the whole word (30_encoding.md R85). -/
def decodeClass0 (w : Word) : Instr :=
  if w = 0x00E0 then .cls
  else if w = 0x00EE then .ret
  else .sys (fieldNNN w)

/-- Class 8 is decoded on N (30_encoding.md R87). -/
def decodeClass8 (w : Word) : Except DecodeReject Instr :=
  match (fieldN w).toNat with
  | 0x0 => .ok (.ldReg (fieldX w) (fieldY w))
  | 0x1 => .ok (.orReg (fieldX w) (fieldY w))
  | 0x2 => .ok (.andReg (fieldX w) (fieldY w))
  | 0x3 => .ok (.xorReg (fieldX w) (fieldY w))
  | 0x4 => .ok (.addReg (fieldX w) (fieldY w))
  | 0x5 => .ok (.subReg (fieldX w) (fieldY w))
  | 0x6 => .ok (.shr (fieldX w) (fieldY w))
  | 0x7 => .ok (.subnReg (fieldX w) (fieldY w))
  | 0xE => .ok (.shl (fieldX w) (fieldY w))
  | _ => .error (.unrecognized w)

/-- Class E is decoded on the low byte (30_encoding.md R87). -/
def decodeClassE (w : Word) : Except DecodeReject Instr :=
  if fieldNN w = 0x9E then .ok (.skp (fieldX w))
  else if fieldNN w = 0xA1 then .ok (.sknp (fieldX w))
  else .error (.unrecognized w)

/-- Class F is decoded on the low byte (30_encoding.md R87). -/
def decodeClassF (w : Word) : Except DecodeReject Instr :=
  if fieldNN w = 0x1E then .ok (.addI (fieldX w))
  else if fieldNN w = 0x55 then .ok (.storeRegs (fieldX w))
  else if fieldNN w = 0x65 then .ok (.loadRegs (fieldX w))
  else .error (.unrecognized w)

/-- Decoding is a function of the word alone (30_encoding.md R83), by its class. -/
def decodeWord (w : Word) : Except DecodeReject Instr :=
  match (fieldC w).toNat with
  | 0x0 => .ok (decodeClass0 w)
  | 0x1 => .ok (.jp (fieldNNN w))
  | 0x2 => .ok (.call (fieldNNN w))
  | 0x3 => .ok (.seImm (fieldX w) (fieldNN w))
  | 0x4 => .ok (.sneImm (fieldX w) (fieldNN w))
  | 0x5 => .ok (.seReg (fieldX w) (fieldY w) (fieldN w))
  | 0x6 => .ok (.ldImm (fieldX w) (fieldNN w))
  | 0x7 => .ok (.addImm (fieldX w) (fieldNN w))
  | 0x8 => decodeClass8 w
  | 0x9 => .ok (.sneReg (fieldX w) (fieldY w) (fieldN w))
  | 0xA => .ok (.ldI (fieldNNN w))
  | 0xB => .ok (.jpV0 (fieldNNN w))
  | 0xC => .ok (.rnd (fieldX w) (fieldNN w))
  | 0xD => .ok (.drw (fieldX w) (fieldY w) (fieldN w))
  | 0xE => decodeClassE w
  | _ => decodeClassF w

/-- The instruction at the head of a list of bytes and the bytes after it. -/
def decode : List Byte → Except DecodeReject (Instr × List Byte)
  | hi :: lo :: rest =>
    match decodeWord (wordOfBytes hi lo) with
    | .ok i => .ok (i, rest)
    | .error r => .error r
  | [_] => .error .truncated
  | [] => .error .truncated

/-! ## Encoding (30_encoding.md R84, R91) -/

/-- Class and address literal. -/
def wordCNNN (c : Nibble) (nnn : Addr12) : Word := c ++ nnn

/-- Class, register and immediate byte. -/
def wordCXNN (c x : Nibble) (nn : Byte) : Word := c ++ x ++ nn

/-- Class, two registers and the low nibble. -/
def wordCXYN (c x y n : Nibble) : Word := c ++ x ++ y ++ n

/-- The word of an instruction. `SYS 0x0E0` and `SYS 0x0EE` are not well formed: their words are those of CLS and
RET (R91). -/
def encode : Instr → Word
  | .cls => 0x00E0
  | .ret => 0x00EE
  | .sys nnn => wordCNNN 0x0 nnn
  | .jp nnn => wordCNNN 0x1 nnn
  | .call nnn => wordCNNN 0x2 nnn
  | .seImm x nn => wordCXNN 0x3 x nn
  | .sneImm x nn => wordCXNN 0x4 x nn
  | .seReg x y n => wordCXYN 0x5 x y n
  | .ldImm x nn => wordCXNN 0x6 x nn
  | .addImm x nn => wordCXNN 0x7 x nn
  | .ldReg x y => wordCXYN 0x8 x y 0x0
  | .orReg x y => wordCXYN 0x8 x y 0x1
  | .andReg x y => wordCXYN 0x8 x y 0x2
  | .xorReg x y => wordCXYN 0x8 x y 0x3
  | .addReg x y => wordCXYN 0x8 x y 0x4
  | .subReg x y => wordCXYN 0x8 x y 0x5
  | .shr x y => wordCXYN 0x8 x y 0x6
  | .subnReg x y => wordCXYN 0x8 x y 0x7
  | .shl x y => wordCXYN 0x8 x y 0xE
  | .sneReg x y n => wordCXYN 0x9 x y n
  | .ldI nnn => wordCNNN 0xA nnn
  | .jpV0 nnn => wordCNNN 0xB nnn
  | .rnd x nn => wordCXNN 0xC x nn
  | .drw x y n => wordCXYN 0xD x y n
  | .skp x => wordCXNN 0xE x 0x9E
  | .sknp x => wordCXNN 0xE x 0xA1
  | .addI x => wordCXNN 0xF x 0x1E
  | .storeRegs x => wordCXNN 0xF x 0x55
  | .loadRegs x => wordCXNN 0xF x 0x65

/-- A word as memory holds it, high byte first (20_memory.md R52). -/
def bytesOfWord (w : Word) : List Byte := [hiByte w, loByte w]

/-- The two bytes of an instruction, in the order of memory. -/
def encodeBytes (i : Instr) : List Byte := bytesOfWord (encode i)

/-! ## The opcode table of 30_encoding.md R84, as data -/

/-- One row of the table: a word `w` matches it when `w AND mask = pattern` (30_encoding.md R83). -/
structure OpRow where
  mnemonic : String
  mask : Word
  pattern : Word
  deriving DecidableEq, Repr

/-- Rows 1 to 10: classes 0 to 7. -/
def opcodeRowsLow : List OpRow :=
  [⟨"CLS", 0xFFFF, 0x00E0⟩, ⟨"RET", 0xFFFF, 0x00EE⟩, ⟨"SYS_NNN", 0xF000, 0x0000⟩, ⟨"JP_NNN", 0xF000, 0x1000⟩,
   ⟨"CALL_NNN", 0xF000, 0x2000⟩, ⟨"SE_VX__NN", 0xF000, 0x3000⟩, ⟨"SNE_VX__NN", 0xF000, 0x4000⟩,
   ⟨"SE_VX__VY", 0xF000, 0x5000⟩, ⟨"LD_VX__NN", 0xF000, 0x6000⟩, ⟨"ADD_VX__NN", 0xF000, 0x7000⟩]

/-- Rows 11 to 19: class 8. -/
def opcodeRowsAlu : List OpRow :=
  [⟨"LD_VX__VY", 0xF00F, 0x8000⟩, ⟨"OR_VX__VY", 0xF00F, 0x8001⟩, ⟨"AND_VX__VY", 0xF00F, 0x8002⟩,
   ⟨"XOR_VX__VY", 0xF00F, 0x8003⟩, ⟨"ADD_VX__VY", 0xF00F, 0x8004⟩, ⟨"SUB_VX__VY", 0xF00F, 0x8005⟩,
   ⟨"SHR_VX", 0xF00F, 0x8006⟩, ⟨"SUBN_VX__VY", 0xF00F, 0x8007⟩, ⟨"SHL_VX", 0xF00F, 0x800E⟩]

/-- Rows 20 to 29: classes 9 to F. -/
def opcodeRowsHigh : List OpRow :=
  [⟨"SNE_VX__VY", 0xF000, 0x9000⟩, ⟨"LD_I__NNN", 0xF000, 0xA000⟩, ⟨"JP_V0__NNN", 0xF000, 0xB000⟩,
   ⟨"RND_VX__NN", 0xF000, 0xC000⟩, ⟨"DRW_VX__VY__N", 0xF000, 0xD000⟩, ⟨"SKP_VX", 0xF0FF, 0xE09E⟩,
   ⟨"SKNP_VX", 0xF0FF, 0xE0A1⟩, ⟨"ADD_I__VX", 0xF0FF, 0xF01E⟩, ⟨"LD__I___VX", 0xF0FF, 0xF055⟩,
   ⟨"LD_VX___I", 0xF0FF, 0xF065⟩]

/-- The 29 rows, in the table's order. -/
def opcodeRows : List OpRow := opcodeRowsLow ++ opcodeRowsAlu ++ opcodeRowsHigh

/-- `w AND mask = match` (30_encoding.md R83). -/
def OpRow.matchesWord (r : OpRow) (w : Word) : Bool := w &&& r.mask == r.pattern

/-- Which row of the table an instruction belongs to, as its place in `opcodeRows`. -/
def Instr.rowNumber : Instr → Nat
  | .cls => 0
  | .ret => 1
  | .sys _ => 2
  | .jp _ => 3
  | .call _ => 4
  | .seImm _ _ => 5
  | .sneImm _ _ => 6
  | .seReg _ _ _ => 7
  | .ldImm _ _ => 8
  | .addImm _ _ => 9
  | .ldReg _ _ => 10
  | .orReg _ _ => 11
  | .andReg _ _ => 12
  | .xorReg _ _ => 13
  | .addReg _ _ => 14
  | .subReg _ _ => 15
  | .shr _ _ => 16
  | .subnReg _ _ => 17
  | .shl _ _ => 18
  | .sneReg _ _ _ => 19
  | .ldI _ => 20
  | .jpV0 _ => 21
  | .rnd _ _ => 22
  | .drw _ _ _ => 23
  | .skp _ => 24
  | .sknp _ => 25
  | .addI _ => 26
  | .storeRegs _ => 27
  | .loadRegs _ => 28

/-! ## The host's question -/

/-- The bytes of an instruction whose bits, numbered as spec/opcode_table.json numbers them, are `w`: one 16-bit
word, bit 0 its least significant bit, laid out high byte first; bits at and above `nbits` are zero. -/
def tableBytes (nbits w : Nat) : List Byte := bytesOfWord (BitVec.ofNat 16 (w % 2 ^ nbits))

/-- The instruction the decoder reads from an instruction whose table bits are `w`. -/
def decodeTableWord (nbits w : Nat) : Option Instr :=
  match decode (tableBytes nbits w) with
  | .ok (i, _) => some i
  | .error _ => none

end Sys2Proof
end

