-- ==== Sys2Proof/Machine/Fetch.lean ====
section
/-! DEFINITION. The fetch (20_memory.md R51, R52), decode, and the skeleton of one step (10_state.md R25) around the
execution of the instruction. -/

namespace Sys2Proof.Machine

/-- `read_byte` at address `a` for the step that began at PC: the byte, or OutOfBoundsFetch when `a` is outside memory
(20_memory.md R51). -/
def fetchByte (s : State) (a : Nat) : Except Fault Byte :=
  if s.cfg.memSize ≤ a then .error (.outOfBoundsFetch s.pc a) else .ok (memRead s.mem a)

/-- `read_word`: two bytes, the first one high, each with its own check (20_memory.md R52). -/
def fetchWord (s : State) : Except Fault Word :=
  match fetchByte s s.pc.toNat with
  | .error f => .error f
  | .ok hi =>
    match fetchByte s (s.pc.toNat + 1) with
    | .error f => .error f
    | .ok lo => .ok (wordOfBytes hi lo)

/-- Fetch and decode in the order of 60_exceptions.md R180: an illegal word is UnrecognizedInstruction. -/
def fetchInstr (s : State) : Except Fault Instr :=
  match fetchWord s with
  | .error f => .error f
  | .ok w =>
    match decodeWord w with
    | .ok i => .ok i
    | .error _ => .error (.unrecognizedInstruction s.pc w)

/-- One step (10_state.md R25) with `run` as the execution of a decoded instruction: nothing changes outside RUNNING
(60_exceptions.md R172), a fault of the fetch or the decode is raised, and a configuration that breaks 00_scope.md R7
is refused. -/
def stepWith (run : Instr → State → Result) (s : State) : Result :=
  if s.cfg.Valid then
    if s.run = .running then
      match fetchInstr s with
      | .ok i => run i s
      | .error f => .next (raiseFault f s)
    else .next s
  else .refused .invalidConfiguration

/-- `s` with the bytes `bs` stored from the program counter on, where memory has room for them. -/
def placeAtPc (bs : List Byte) (s : State) : State :=
  if s.pc.toNat + bs.length ≤ s.cfg.memSize then { s with mem := storeBytes s.mem s.pc.toNat bs } else s

end Sys2Proof.Machine
end

