-- ==== Sys2Proof/Machine/Step.lean ====
section
/-! DEFINITION. One step of the machine (10_state.md R25) and the host's way to place an instruction. -/

namespace Sys2Proof.Machine

/-- `step()` (10_state.md R25, 60_exceptions.md R187). -/
def step (s : State) : Host.Outcome State Fault Refusal := stepWith exec s

/-- `s` with the instruction whose table bits are `w` stored at PC, where `step` fetches. Nothing else changes; a
program is otherwise loaded from outside by the host's `load` (log 16). -/
def State.withFetchWord (s : State) (nbits w : Nat) : State := placeAtPc (tableBytes nbits w) s

end Sys2Proof.Machine
end

