-- ==== Sys2Proof/Machine/HostPort.lean ====
section
/-! DEFINITION. The host interface at transaction level (60_exceptions.md R171 to R176, R185 to R192;
70_reset_and_hazards.md R200): each transaction happens wholly between two steps (20_memory.md R65). -/

namespace Sys2Proof.Machine

/-- The transactions of 60_exceptions.md R185. -/
inductive Transaction where
  | reset
  | load (rom : List Byte)
  | step
  | halt
  | resume
  | readFramebuffer
  | setKeys (bitmap : Word)
  | getTimers
  | tickTimers
  /-- The host supplies one byte for a CXNN to come (R191). -/
  | rand (b : Byte)
  | inspect
  deriving DecidableEq, Repr

/-- What a transaction returns to the host (60_exceptions.md R172, R178, R185 to R192). -/
inductive Reply where
  | ok
  /-- A fault of a step (R178). -/
  | faulted (f : Fault)
  /-- `step` outside RUNNING, "not one of the fault kinds" (R172). -/
  | notRunning
  /-- The sixth fault kind, of `load` alone, with the length of the rejected image (R177, R186). -/
  | loadOverflow (len : Nat)
  /-- The framebuffer region in address order (R188). -/
  | framebuffer (bytes : List Byte)
  /-- (DT, ST) (R190). -/
  | timers (dt st : Byte)
  /-- Any piece of the state (R192). -/
  | state (s : State)
  /-- The model gives the step no meaning (00_scope.md R7). -/
  | refused (r : Refusal)
  deriving DecidableEq, Repr

/-- The fault kind a reply reports, LoadOverflow among them; NotRunning is "not one of the fault kinds"
(60_exceptions.md R172, R177). -/
def replyKind : Reply → Option FaultKind
  | .faulted f => some (faultKind f)
  | .loadOverflow _ => some .loadOverflow
  | .ok | .notRunning | .framebuffer _ | .timers _ _ | .state _ | .refused _ => none

/-- The numeric code of the fault a reply reports, 0 for none (60_exceptions.md R177). -/
def replyCode (r : Reply) : Nat := kindCode (replyKind r)

/-- Every piece of the state of 10_state.md R20 at its reset value, in any run state (70_reset_and_hazards.md R200).
The configuration and the random port are not core state (10_state.md R36, R37) and stay (log 19). -/
def hostReset (s : State) : State :=
  { State.resetWith s.cfg with randQueue := s.randQueue, randDrawn := s.randDrawn }

/-- The image does not fit before the framebuffer region (60_exceptions.md R186). -/
def loadOverflows (rom : List Byte) (s : State) : Bool :=
  decide (s.cfg.fbOrigin < s.cfg.progOrigin + rom.length)

/-- `load(rom)` (60_exceptions.md R186): the image's bytes at the program origin, or no change at all. -/
def hostLoad (rom : List Byte) (s : State) : State :=
  if loadOverflows rom s then s else { s with mem := storeBytes s.mem s.cfg.progOrigin rom }

/-- `halt` (60_exceptions.md R171, R173). -/
def hostHalt (s : State) : State := if s.run = .running then { s with run := .halted } else s

/-- `resume` (60_exceptions.md R171, R174). -/
def hostResume (s : State) : State := if s.run = .halted then { s with run := .running } else s

/-- `set_keys` (60_exceptions.md R189). -/
def hostSetKeys (bitmap : Word) (s : State) : State := { s with keys := bitmap }

/-- A timer after one tick: it stops at 0 (60_exceptions.md R190). -/
def tick (t : Byte) : Byte := if t = 0 then 0 else t - 1

/-- `tick_timers` (60_exceptions.md R190). -/
def hostTick (s : State) : State := { s with dt := tick s.dt, st := tick s.st }

/-- `rand`: one more byte waits at the random port (60_exceptions.md R191). -/
def hostRand (b : Byte) (s : State) : State := { s with randQueue := s.randQueue ++ [b] }

/-- `read_framebuffer` (60_exceptions.md R188). -/
def framebufferBytes (s : State) : List Byte :=
  loadBytes s.mem s.cfg.fbOrigin (s.cfg.memSize - s.cfg.fbOrigin)

/-- The status `step` returns: NotRunning outside RUNNING, else the fault that this step recorded, else Ok
(10_state.md R25, 60_exceptions.md R172, R178). -/
def stepStatus (before after : State) : Reply :=
  if before.run = .running then
    match after.fault, after.run with
    | some f, .faulted => .faulted f
    | _, _ => .ok
  else .notRunning

/-- One step as a transaction. -/
def hostStep (s : State) : State × Reply :=
  match step s with
  | .next t => (t, stepStatus s t)
  | .fault f => (s, .faulted f)
  | .refused r => (s, .refused r)

/-- A newly created core of configuration `c`: "A newly created core is in the reset state"
(70_reset_and_hazards.md R200), and a configuration that breaks 00_scope.md R7 is refused. -/
def createCore (c : Config) : Result :=
  if c.Valid then .next (State.resetWith c) else .refused .invalidConfiguration

/-- What each transaction does to a core whose configuration obeys 00_scope.md R7: the state after it and the reply
(60_exceptions.md R185). -/
def perform : Transaction → State → State × Reply
  | .reset, s => (hostReset s, .ok)
  | .load rom, s => (hostLoad rom s, if loadOverflows rom s then .loadOverflow rom.length else .ok)
  | .step, s => hostStep s
  | .halt, s => (hostHalt s, .ok)
  | .resume, s => (hostResume s, .ok)
  | .readFramebuffer, s => (s, .framebuffer (framebufferBytes s))
  | .setKeys bitmap, s => (hostSetKeys bitmap s, .ok)
  | .getTimers, s => (s, .timers s.dt s.st)
  | .tickTimers, s => (hostTick s, .ok)
  | .rand b, s => (hostRand b s, .ok)
  | .inspect, s => (s, .state s)

/-- One transaction (60_exceptions.md R185). A configuration that breaks 00_scope.md R7 is refused, whatever the
transaction. -/
def transact (t : Transaction) (s : State) : State × Reply :=
  if s.cfg.Valid then perform t s else (s, .refused .invalidConfiguration)

/-- A sequence of transactions, first one first: the state after them. -/
def transactAll : List Transaction → State → State
  | [], s => s
  | t :: ts, s => transactAll ts (transact t s).1

end Sys2Proof.Machine
end

