-- ==== Sys2Proof/Safety.lean ====
section
/-! DEFINITION. The terms claims are stated in: what a frame says, the invariants of the machine, what is reachable. -/

namespace Sys2Proof.Machine

/-! ## Frames -/

/-- Every register but those `p` names holds what it held. -/
def SameRegsBut (p : Nibble → Prop) (s t : State) : Prop := ∀ k, ¬ p k → getReg t k = getReg s k

/-- Every general register holds what it held. -/
def SameRegs (s t : State) : Prop := ∀ k, getReg t k = getReg s k

/-- Every byte of memory reads what it read. -/
def SameMem (s t : State) : Prop := ∀ a, memRead t.mem a = memRead s.mem a

/-- Every byte outside [a, a + n) reads what it read. -/
def SameMemOutside (a n : Nat) (s t : State) : Prop :=
  ∀ b, (b < a ∨ a + n ≤ b) → memRead t.mem b = memRead s.mem b

/-- The call stack, its slots and its count, is what it was. -/
def SameStack (s t : State) : Prop := t.stack = s.stack ∧ t.sp = s.sp

/-- The run state and the fault record are what they were. -/
def SameRun (s t : State) : Prop := t.run = s.run ∧ t.fault = s.fault

/-- The timers and the key mask, which the host alone writes, are what they were, and so is the configuration. -/
def SameHost (s t : State) : Prop := t.dt = s.dt ∧ t.st = s.st ∧ t.keys = s.keys ∧ t.cfg = s.cfg

/-- The random port has not been asked. -/
def SameRand (s t : State) : Prop := t.randQueue = s.randQueue ∧ t.randDrawn = s.randDrawn

/-- All that no instruction touches unless it faults or draws a random byte. -/
def SameRest (s t : State) : Prop := SameRun s t ∧ SameHost s t ∧ SameRand s t

/-- The frame of an instruction whose destination is V[x] and that writes no flag. -/
def WritesOnlyReg (x : Nibble) (s t : State) : Prop :=
  t.pc = s.pc + 2 ∧ SameRegsBut (fun k => k = x) s t ∧ t.i = s.i ∧ SameMem s t ∧ SameStack s t ∧ SameRest s t

/-- The frame of an instruction whose destination is V[x] and that writes VF as a side effect. -/
def WritesOnlyRegAndFlag (x : Nibble) (s t : State) : Prop :=
  t.pc = s.pc + 2 ∧ SameRegsBut (fun k => k = x ∨ k = 15) s t ∧ t.i = s.i ∧ SameMem s t ∧ SameStack s t
    ∧ SameRest s t

/-- The frame of a jump or a skip: nothing but PC changes. -/
def WritesOnlyPc (s t : State) : Prop :=
  SameRegs s t ∧ t.i = s.i ∧ SameMem s t ∧ SameStack s t ∧ SameRest s t

/-- The registers an instruction may write: its destination, and VF where the instruction has a flag
(10_state.md R22, R40). -/
def mayWriteReg (i : Instr) (k : Nibble) : Bool :=
  match i with
  | .ldImm x _ | .addImm x _ | .ldReg x _ | .orReg x _ | .andReg x _ | .xorReg x _ | .rnd x _ => k = x
  | .addReg x _ | .subReg x _ | .shr x _ | .subnReg x _ | .shl x _ => k = x || k = 15
  | .drw _ _ _ => k = 15
  | .loadRegs x => k.toNat ≤ x.toNat
  | .cls | .ret | .sys _ | .jp _ | .call _ | .seImm _ _ | .sneImm _ _ | .seReg _ _ _ | .sneReg _ _ _ | .ldI _
  | .jpV0 _ | .skp _ | .sknp _ | .addI _ | .storeRegs _ => false

/-- A result with `f` applied to its next state, for statements that compare two runs. -/
def mapNext (f : State → State) : Result → Result
  | .next t => .next (f t)
  | .fault r => .fault r
  | .refused r => .refused r

/-! ## Faults -/

/-- The fault an instruction raises in state `s`, by the exact conditions of 60_exceptions.md R177. -/
def instrRaises (i : Instr) (s : State) : Option FaultKind :=
  match i with
  | .call _ => if s.sp.val = 16 then some .stackOverflow else none
  | .ret => if s.sp.val = 0 then some .stackUnderflow else none
  | .storeRegs x | .loadRegs x =>
    if s.cfg.memSize ≤ s.i.toNat + x.toNat then some .outOfBoundsTransfer else none
  | .drw _ _ n =>
    if 0 < n.toNat ∧ s.cfg.memSize ≤ s.i.toNat + n.toNat - 1 then some .outOfBoundsTransfer else none
  | .cls | .sys _ | .jp _ | .seImm _ _ | .sneImm _ _ | .seReg _ _ _ | .sneReg _ _ _ | .ldImm _ _ | .addImm _ _
  | .ldReg _ _ | .orReg _ _ | .andReg _ _ | .xorReg _ _ | .addReg _ _ | .subReg _ _ | .shr _ _ | .subnReg _ _
  | .shl _ _ | .ldI _ | .jpV0 _ | .rnd _ _ | .skp _ | .sknp _ | .addI _ => none

/-- The fault a step of a RUNNING core raises, the checks in the order of 60_exceptions.md R180. -/
def stepRaises (s : State) : Option FaultKind :=
  if s.cfg.memSize ≤ s.pc.toNat + 1 then some .outOfBoundsFetch
  else
    match decodeWord (wordOfBytes (memRead s.mem s.pc.toNat) (memRead s.mem (s.pc.toNat + 1))) with
    | .error _ => some .unrecognizedInstruction
    | .ok i => instrRaises i s

/-! ## Drawing -/

/-- The cells of an `n`-row sprite: row and column, 8 columns a row (43_display_keypad.md R151). -/
def spriteCells (n : Nat) : List (Nat × Nat) :=
  (List.range n).flatMap fun r => (List.range 8).map fun k => (r, k)

/-- The cell's sprite bit is 1 and its wrapped coordinates are (px, py) (43_display_keypad.md R151): row r is the byte
M[I + r], column k its bit 7 − k. -/
def cellLands (s : State) (x y : Nibble) (px py : Nat) (cell : Nat × Nat) : Bool :=
  (memRead s.mem (s.i.toNat + cell.1)).getLsbD (7 - cell.2)
    && decide (((getReg s x).toNat + cell.2) % s.cfg.fbWidth = px)
    && decide (((getReg s y).toNat + cell.1) % s.cfg.fbHeight = py)

/-- How many 1 bits of the sprite land on the pixel (px, py). -/
def spriteVisits (s : State) (x y n : Nibble) (px py : Nat) : Nat :=
  (spriteCells n.toNat).countP (cellLands s x y px py)

/-- Some pixel is 1 when a sprite bit lands on it: it was 1 before, or a second bit lands on it
(43_display_keypad.md R151, R154 (e)). -/
def DrawCollides (s : State) (x y n : Nibble) : Prop :=
  ∃ px py, px < s.cfg.fbWidth ∧ py < s.cfg.fbHeight ∧
    ((pixel s.cfg s.mem px py = true ∧ 1 ≤ spriteVisits s x y n px py) ∨ 2 ≤ spriteVisits s x y n px py)

/-! ## Invariants -/

/-- Memory is in canonical form and lists only addresses of the address space [0, MEM_SIZE) (20_memory.md R50). -/
def MemoryInv (s : State) : Prop := s.mem.wf ∧ ∀ c ∈ s.mem, c.1 < s.cfg.memSize

/-- FAULT is none in RUNNING and HALTED, and in FAULTED it records a fault whose pc0 is the value of PC
(10_state.md R35, 60_exceptions.md R179). -/
def FaultRecordInv (s : State) : Prop :=
  (s.run ≠ .faulted → s.fault = none) ∧ (s.run = .faulted → ∃ f, s.fault = some f ∧ faultPc f = s.pc)

/-- The bounds of 10_state.md R41: PC at most 0xFFF + 0xFF = 0x10FE, and no stack slot above MEM_SIZE. -/
def PcBoundInv (s : State) : Prop :=
  s.pc.toNat ≤ 0x10FE ∧ ∀ (k : Nat) (h : k < 16), (s.stack[k]'h).toNat ≤ s.cfg.memSize

/-- The timers are 0 (10_state.md R30). -/
def TimersZero (s : State) : Prop := s.dt = 0 ∧ s.st = 0

/-- All of it together, for a machine whose configuration obeys 00_scope.md R7. -/
def StateInv (s : State) : Prop := s.cfg.Valid ∧ MemoryInv s ∧ FaultRecordInv s ∧ PcBoundInv s

/-- A state some sequence of transactions leads to from a newly created core. -/
def Reachable (s : State) : Prop :=
  ∃ c s₀ ts, createCore c = .next s₀ ∧ transactAll ts s₀ = s

end Sys2Proof.Machine
end

