-- ==== Sys2Proof/Certificates/Slice0/Obligations.lean ====
section
/-! DEFINITION. The statements for the provers. Each docstring names the rule of the spec, and where a clause rests on
a choice the spec marks as its own (92_eei_decisions.md) or on the model's choice (notes/assumptions) it says so. -/

open Sys2Proof Sys2Proof.Machine

/-! ## Encoding -/

/-- Decoding the two bytes of a well-formed instruction gives it back, whatever follows (30_encoding.md R80 to R85,
R91). -/
def Obligations.DecodeOfEncode : Prop :=
  ∀ (i : Instr) (rest : List Byte), i.wellFormed = true → decode (encodeBytes i ++ rest) = .ok (i, rest)

/-- A word that decodes is the word of the instruction it decodes to, which is well formed: one word, one meaning
(30_encoding.md R83, R86). -/
def Obligations.EncodeOfDecode : Prop :=
  ∀ (w : Word) (i : Instr), decodeWord w = .ok i → encode i = w ∧ i.wellFormed = true

/-- The illegal words are exactly those of 30_encoding.md R88 (for class E the spec's decision D11). -/
def Obligations.IllegalWordsExactly : Prop :=
  ∀ w : Word, decodeWord w = .error (.unrecognized w) ↔
    (fieldC w = 8 ∧ (fieldN w = 8 ∨ fieldN w = 9 ∨ fieldN w = 0xA ∨ fieldN w = 0xB ∨ fieldN w = 0xC
        ∨ fieldN w = 0xD ∨ fieldN w = 0xF))
      ∨ (fieldC w = 0xE ∧ fieldNN w ≠ 0x9E ∧ fieldNN w ≠ 0xA1)
      ∨ (fieldC w = 0xF ∧ fieldNN w ≠ 0x1E ∧ fieldNN w ≠ 0x55 ∧ fieldNN w ≠ 0x65)

/-- The decoder follows the opcode table: a word decodes to the instruction of a row that it matches, every other row
that it matches has a smaller mask, and a word that is no instruction matches no row (30_encoding.md R83, R84). -/
def Obligations.DecodeFollowsOpcodeTable : Prop :=
  ∀ w : Word,
    (∀ i, decodeWord w = .ok i → ∃ r, opcodeRows[i.rowNumber]? = some r ∧ w &&& r.mask = r.pattern ∧
      ∀ q ∈ opcodeRows, w &&& q.mask = q.pattern → q = r ∨ q.mask.toNat < r.mask.toNat)
    ∧ (∀ e, decodeWord w = .error e → e = .unrecognized w ∧ ∀ q ∈ opcodeRows, w &&& q.mask ≠ q.pattern)

/-- Words written out from 30_encoding.md R84, at least one of each family, decode to what they stand for. -/
def Obligations.SpecWordsDecode : Prop :=
  decode [0x00, 0xE0] = .ok (.cls, []) ∧ decode [0x00, 0xEE] = .ok (.ret, [])
    ∧ decode [0x00, 0xE1] = .ok (.sys 0x0E1, []) ∧ decode [0x1A, 0xBC] = .ok (.jp 0xABC, [])
    ∧ decode [0x22, 0x10] = .ok (.call 0x210, []) ∧ decode [0x30, 0x05] = .ok (.seImm 0 5, [])
    ∧ decode [0x91, 0x2A] = .ok (.sneReg 1 2 0xA, []) ∧ decode [0x6A, 0x05] = .ok (.ldImm 0xA 5, [])
    ∧ decode [0x8F, 0x06] = .ok (.shr 0xF 0, []) ∧ decode [0xB3, 0x00] = .ok (.jpV0 0x300, [])
    ∧ decode [0xC1, 0x0F] = .ok (.rnd 1 0x0F, []) ∧ decode [0xD0, 0x12] = .ok (.drw 0 1 2, [])
    ∧ decode [0xE2, 0x9E] = .ok (.skp 2, []) ∧ decode [0xF1, 0x55] = .ok (.storeRegs 1, [])
    ∧ decode [0xF0, 0x07] = .error (.unrecognized 0xF007)

/-! ## Fetch and step -/

/-- When the bytes at PC decode to `i`, a step of a RUNNING core executes `i` (10_state.md R25); PC may be odd (the
spec's decision D8). The advance of PC by 2 is part of each instruction's meaning. -/
def Obligations.StepRunsTheDecodedInstruction : Prop :=
  ∀ (s : State) (i : Instr), s.cfg.Valid → s.run = .running → s.pc.toNat + 1 < s.cfg.memSize →
    decode [memRead s.mem s.pc.toNat, memRead s.mem (s.pc.toNat + 1)] = .ok (i, []) → step s = exec i s

/-- The fetch faults with the address whose check failed, and the step changes nothing else (20_memory.md R51, R52;
60_exceptions.md R178 to R180, whose PC = pc0 is the spec's decision D7). -/
def Obligations.FetchOutsideMemoryFaults : Prop :=
  ∀ s : State, s.cfg.Valid → s.run = .running →
    (s.cfg.memSize ≤ s.pc.toNat →
        step s = .next { s with run := .faulted, fault := some (.outOfBoundsFetch s.pc s.pc.toNat) })
      ∧ (s.pc.toNat + 1 = s.cfg.memSize →
        step s = .next { s with run := .faulted, fault := some (.outOfBoundsFetch s.pc (s.pc.toNat + 1)) })

/-- An illegal word at PC faults with the word, and the step changes nothing else (30_encoding.md R88,
60_exceptions.md R178; PC = pc0 is the spec's decision D7). -/
def Obligations.IllegalWordFaults : Prop :=
  ∀ (s : State) (w : Word), s.cfg.Valid → s.run = .running → s.pc.toNat + 1 < s.cfg.memSize →
    wordOfBytes (memRead s.mem s.pc.toNat) (memRead s.mem (s.pc.toNat + 1)) = w →
    decodeWord w = .error (.unrecognized w) →
    step s = .next { s with run := .faulted, fault := some (.unrecognizedInstruction s.pc w) }

/-- A step of a core that is not RUNNING changes nothing and replies NotRunning (60_exceptions.md R172, the spec's
decision D18). -/
def Obligations.StepOutsideRunningChangesNothing : Prop :=
  ∀ s : State, s.cfg.Valid → s.run ≠ .running → step s = .next s ∧ transact .step s = (s, .notRunning)

/-- A configuration that breaks a constraint of 00_scope.md R7 is refused: no core of it is created, no step runs and
no host transaction changes anything. The name invalidConfiguration is the model's (log 7). -/
def Obligations.InvalidConfigurationRefused : Prop :=
  (∀ s : State, ¬ s.cfg.Valid →
      step s = .refused .invalidConfiguration
        ∧ ∀ tr : Transaction, transact tr s = (s, .refused .invalidConfiguration))
    ∧ ∀ c : Config, (c.Valid → createCore c = .next (State.resetWith c))
      ∧ (¬ c.Valid → createCore c = .refused .invalidConfiguration)

/-- `step` "never blocks and always returns" (60_exceptions.md R187): with a valid configuration it always answers a next
state. -/
def Obligations.StepAlwaysAnswersNext : Prop :=
  ∀ s : State, s.cfg.Valid → ∃ t, step s = .next t

/-! ## Immediate loads, index register, random -/

/-- 6XNN (41_immediate_index_random.md R120). -/
def Obligations.LoadImmediateSetsOneRegister : Prop :=
  ∀ (x : Nibble) (nn : Byte) (s : State), ∃ t,
    exec (.ldImm x nn) s = .next t ∧ getReg t x = nn ∧ WritesOnlyReg x s t

/-- 7XNN: modulo 256 and no flag, also when X = 15 (41_immediate_index_random.md R121). -/
def Obligations.AddImmediateWrapsWithoutFlag : Prop :=
  ∀ (x : Nibble) (nn : Byte) (s : State), ∃ t,
    exec (.addImm x nn) s = .next t ∧ (getReg t x).toNat = ((getReg s x).toNat + nn.toNat) % 256 ∧ WritesOnlyReg x s t

/-- ANNN (41_immediate_index_random.md R122). -/
def Obligations.LoadIndexSetsIndex : Prop :=
  ∀ (nnn : Addr12) (s : State), ∃ t,
    exec (.ldI nnn) s = .next t ∧ t.i.toNat = nnn.toNat
      ∧ t.pc = s.pc + 2 ∧ SameRegs s t ∧ SameMem s t ∧ SameStack s t ∧ SameRest s t

/-- FX1E: modulo 65536 (the spec's decision D26) and no flag (41_immediate_index_random.md R123). -/
def Obligations.AddIndexWrapsWithoutFlag : Prop :=
  ∀ (x : Nibble) (s : State), ∃ t,
    exec (.addI x) s = .next t ∧ t.i.toNat = (s.i.toNat + (getReg s x).toNat) % 65536
      ∧ t.pc = s.pc + 2 ∧ SameRegs s t ∧ SameMem s t ∧ SameStack s t ∧ SameRest s t

/-- CXNN: NN AND the byte the port delivers, and exactly one byte is drawn (41_immediate_index_random.md R124, R125).
The byte is the one the host supplied where there is one, else the free value of log 3; the queue and the counter are
the model's form of the port (log 3). -/
def Obligations.RandomAndsOneDrawnByte : Prop :=
  ∀ (x : Nibble) (nn : Byte) (s : State), ∃ t,
    exec (.rnd x nn) s = .next t ∧ getReg t x = nn &&& nextRandByte s
      ∧ (∀ b rest, s.randQueue = b :: rest → getReg t x = nn &&& b ∧ t.randQueue = rest)
      ∧ (s.randQueue = [] → getReg t x = nn &&& Config.freeRandByte s.randDrawn ∧ t.randQueue = [])
      ∧ t.randDrawn = s.randDrawn + 1
      ∧ t.pc = s.pc + 2 ∧ SameRegsBut (fun k => k = x) s t ∧ t.i = s.i ∧ SameMem s t ∧ SameStack s t
      ∧ SameRun s t ∧ SameHost s t

/-! ## ALU -/

/-- 8XY0 to 8XY3: copy, OR, AND, XOR, bit by bit, no flag (42_alu.md R130, R132, R133, R139). -/
def Obligations.CopyAndBitwiseWriteOneRegister : Prop :=
  ∀ (x y : Nibble) (s : State),
    (∃ t, exec (.ldReg x y) s = .next t ∧ getReg t x = getReg s y ∧ WritesOnlyReg x s t)
      ∧ (∃ t, exec (.orReg x y) s = .next t ∧ WritesOnlyReg x s t ∧
        ∀ k, k < 8 → (getReg t x).getLsbD k = ((getReg s x).getLsbD k || (getReg s y).getLsbD k))
      ∧ (∃ t, exec (.andReg x y) s = .next t ∧ WritesOnlyReg x s t ∧
        ∀ k, k < 8 → (getReg t x).getLsbD k = ((getReg s x).getLsbD k && (getReg s y).getLsbD k))
      ∧ (∃ t, exec (.xorReg x y) s = .next t ∧ WritesOnlyReg x s t ∧
        ∀ k, k < 8 → (getReg t x).getLsbD k = ((getReg s x).getLsbD k ^^ (getReg s y).getLsbD k))

/-- 8XY4: the sum modulo 256 and VF the carry; when X = 15 the carry stays and the sum is lost (42_alu.md R134; the
order for X = 15 is the spec's decision D9). -/
def Obligations.AddSetsCarry : Prop :=
  ∀ (x y : Nibble) (s : State), ∃ t,
    exec (.addReg x y) s = .next t
      ∧ (x ≠ 15 → (getReg t x).toNat = ((getReg s x).toNat + (getReg s y).toNat) % 256)
      ∧ getReg t 15 = (if 255 < (getReg s x).toNat + (getReg s y).toNat then 1 else 0)
      ∧ WritesOnlyRegAndFlag x s t

/-- 8XY5 and 8XY7: the difference modulo 256 and VF the strict test; when X = 15 the flag stays (42_alu.md R135, R137;
the order for X = 15 is the spec's decision D9). -/
def Obligations.SubtractSetsStrictFlag : Prop :=
  ∀ (x y : Nibble) (s : State),
    (∃ t, exec (.subReg x y) s = .next t
      ∧ (x ≠ 15 → ((getReg t x).toNat : Int) = (((getReg s x).toNat : Int) - (getReg s y).toNat) % 256)
      ∧ getReg t 15 = (if (getReg s y).toNat < (getReg s x).toNat then 1 else 0)
      ∧ WritesOnlyRegAndFlag x s t)
    ∧ (∃ t, exec (.subnReg x y) s = .next t
      ∧ (x ≠ 15 → ((getReg t x).toNat : Int) = (((getReg s y).toNat : Int) - (getReg s x).toNat) % 256)
      ∧ getReg t 15 = (if (getReg s x).toNat < (getReg s y).toNat then 1 else 0)
      ∧ WritesOnlyRegAndFlag x s t)

/-- 8XY6: V[X] halved, VF the old bit 0, V[Y] not read; when X = 15 the flag stays (42_alu.md R136; the source's own
test 0x8F06). -/
def Obligations.ShiftRightKeepsOldLowBit : Prop :=
  ∀ (x y : Nibble) (s : State), ∃ t,
    exec (.shr x y) s = .next t
      ∧ (x ≠ 15 → (getReg t x).toNat = (getReg s x).toNat / 2)
      ∧ (getReg t 15).toNat = (getReg s x).toNat % 2
      ∧ WritesOnlyRegAndFlag x s t

/-- 8XYE: V[X] doubled modulo 256, VF the old bit 7, V[Y] not read; when X = 15 the flag stays (42_alu.md R138; the
order for X = 15 is the spec's decision D9). -/
def Obligations.ShiftLeftKeepsOldHighBit : Prop :=
  ∀ (x y : Nibble) (s : State), ∃ t,
    exec (.shl x y) s = .next t
      ∧ (x ≠ 15 → (getReg t x).toNat = (getReg s x).toNat * 2 % 256)
      ∧ (getReg t 15).toNat = (getReg s x).toNat / 128
      ∧ WritesOnlyRegAndFlag x s t

/-! ## Control flow -/

/-- 0NNN and 1NNN: PC := NNN, nothing else (40_control_flow.md R100, R102). -/
def Obligations.JumpsSetPcOnly : Prop :=
  ∀ (nnn : Addr12) (s : State),
    (∃ t, exec (.sys nnn) s = .next t ∧ t.pc.toNat = nnn.toNat ∧ WritesOnlyPc s t)
      ∧ (∃ t, exec (.jp nnn) s = .next t ∧ t.pc.toNat = nnn.toNat ∧ WritesOnlyPc s t)

/-- BNNN: PC := NNN + V0, not reduced to 12 bits (40_control_flow.md R104). -/
def Obligations.JumpV0AddsWithoutTruncation : Prop :=
  ∀ (nnn : Addr12) (s : State), ∃ t,
    exec (.jpV0 nnn) s = .next t ∧ t.pc.toNat = nnn.toNat + (getReg s 0).toNat ∧ WritesOnlyPc s t

/-- 2NNN with room on the stack pushes pc0 + 2 and jumps (40_control_flow.md R103; the capacity of sixteen is the
spec's decision D6). -/
def Obligations.CallPushesReturnAddress : Prop :=
  ∀ (nnn : Addr12) (s : State), s.sp.val < 16 → ∃ t,
    exec (.call nnn) s = .next t ∧ t.pc.toNat = nnn.toNat ∧ t.sp.val = s.sp.val + 1
      ∧ t.stack[s.sp.val]? = some (s.pc + 2)
      ∧ (∀ k : Nat, k ≠ s.sp.val → t.stack[k]? = s.stack[k]?)
      ∧ SameRegs s t ∧ t.i = s.i ∧ SameMem s t ∧ SameRest s t

/-- 00EE with a return address on the stack pops it into PC; the slot keeps its value (40_control_flow.md R101; the slot
is the spec's decision D24). -/
def Obligations.ReturnPopsIntoPc : Prop :=
  ∀ s : State, 0 < s.sp.val → ∃ t,
    exec .ret s = .next t ∧ s.stack[s.sp.val - 1]? = some t.pc ∧ t.sp.val + 1 = s.sp.val ∧ t.stack = s.stack
      ∧ SameRegs s t ∧ t.i = s.i ∧ SameMem s t ∧ SameRest s t

/-- 2NNN on a full stack and 00EE on an empty one fault and change nothing but RUN and FAULT (40_control_flow.md R101,
R103; 60_exceptions.md R178; the spec's decisions D6 and D7). -/
def Obligations.StackFaultsChangeNothingElse : Prop :=
  (∀ (nnn : Addr12) (s : State), s.sp.val = 16 →
      exec (.call nnn) s = .next { s with run := .faulted, fault := some (.stackOverflow s.pc) })
    ∧ (∀ s : State, s.sp.val = 0 →
      exec .ret s = .next { s with run := .faulted, fault := some (.stackUnderflow s.pc) })

/-- "CALL then RET": a CALL at PC whose target holds a RET comes back, in two steps, to the instruction after the CALL
with the call stack's count as before (40_control_flow.md R101, R103). -/
def Obligations.CallThenReturnComesBack : Prop :=
  ∀ (s : State) (nnn : Addr12), s.cfg.Valid → s.run = .running → s.sp.val < 16 →
    s.pc.toNat + 1 < s.cfg.memSize → nnn.toNat + 1 < s.cfg.memSize →
    wordOfBytes (memRead s.mem s.pc.toNat) (memRead s.mem (s.pc.toNat + 1)) = encode (.call nnn) →
    wordOfBytes (memRead s.mem nnn.toNat) (memRead s.mem (nnn.toNat + 1)) = encode .ret →
    ∃ t u, step s = .next t ∧ step t = .next u ∧ t.pc.toNat = nnn.toNat ∧ u.pc = s.pc + 2 ∧ u.sp = s.sp
      ∧ SameRegs s u ∧ u.i = s.i ∧ SameMem s u ∧ SameRest s u

/-- 3XNN and 4XNN (40_control_flow.md R105, R106, R109). -/
def Obligations.ImmediateSkips : Prop :=
  ∀ (x : Nibble) (nn : Byte) (s : State),
    (∃ t, exec (.seImm x nn) s = .next t
        ∧ t.pc = (if getReg s x = nn then s.pc + 4 else s.pc + 2) ∧ WritesOnlyPc s t)
      ∧ (∃ t, exec (.sneImm x nn) s = .next t
        ∧ t.pc = (if getReg s x = nn then s.pc + 2 else s.pc + 4) ∧ WritesOnlyPc s t)

/-- 5XYN and 9XYN for every N (40_control_flow.md R107 to R109; that N is ignored is the spec's decision D10). -/
def Obligations.RegisterSkips : Prop :=
  ∀ (x y n : Nibble) (s : State),
    (∃ t, exec (.seReg x y n) s = .next t
        ∧ t.pc = (if getReg s x = getReg s y then s.pc + 4 else s.pc + 2) ∧ WritesOnlyPc s t)
      ∧ (∃ t, exec (.sneReg x y n) s = .next t
        ∧ t.pc = (if getReg s x = getReg s y then s.pc + 2 else s.pc + 4) ∧ WritesOnlyPc s t)

/-- EX9E and EXA1: the key numbered by the value of V[X]; a number of 16 or more is never pressed
(43_display_keypad.md R152, R153; 10_state.md R31, R32; the spec's decision D15). -/
def Obligations.KeySkips : Prop :=
  ∀ (x : Nibble) (s : State),
    (∃ t, exec (.skp x) s = .next t ∧ WritesOnlyPc s t
        ∧ t.pc = (if (getReg s x).toNat < 16 ∧ s.keys.getLsbD (getReg s x).toNat = true then s.pc + 4
            else s.pc + 2))
      ∧ (∃ t, exec (.sknp x) s = .next t ∧ WritesOnlyPc s t
        ∧ t.pc = (if (getReg s x).toNat < 16 ∧ s.keys.getLsbD (getReg s x).toNat = true then s.pc + 2
            else s.pc + 4))

/-! ## Display -/

/-- 00E0 (43_display_keypad.md R150; the extent is the spec's decision D27). -/
def Obligations.ClearZeroesFramebufferOnly : Prop :=
  ∀ s : State, ∃ t,
    exec .cls s = .next t
      ∧ (∀ a, s.cfg.fbOrigin ≤ a → a < s.cfg.memSize → memRead t.mem a = 0)
      ∧ (∀ a, (a < s.cfg.fbOrigin ∨ s.cfg.memSize ≤ a) → memRead t.mem a = memRead s.mem a)
      ∧ t.pc = s.pc + 2 ∧ SameRegs s t ∧ t.i = s.i ∧ SameStack s t ∧ SameRest s t

/-- DXYN whose sprite lies in memory, in every valid configuration: each pixel is inverted once for each 1 bit of the
sprite that lands on it, VF tells whether some pixel was 1 when it was inverted, no byte outside the framebuffer
changes (43_display_keypad.md R151, R154; 20_memory.md R58; the spec's decisions D5, D12 to D14). -/
def Obligations.DrawInvertsLandedPixels : Prop :=
  ∀ (x y n : Nibble) (s : State), s.cfg.Valid → (n.toNat = 0 ∨ s.i.toNat + n.toNat ≤ s.cfg.memSize) → ∃ t,
    exec (.drw x y n) s = .next t
      ∧ (∀ px py, px < s.cfg.fbWidth → py < s.cfg.fbHeight →
        pixel s.cfg t.mem px py = (pixel s.cfg s.mem px py ^^ decide (spriteVisits s x y n px py % 2 = 1)))
      ∧ (∀ a, (a < s.cfg.fbOrigin ∨ s.cfg.memSize ≤ a) → memRead t.mem a = memRead s.mem a)
      ∧ ((getReg t 15 = 1 ∧ DrawCollides s x y n) ∨ (getReg t 15 = 0 ∧ ¬ DrawCollides s x y n))
      ∧ t.pc = s.pc + 2 ∧ SameRegsBut (fun k => k = 15) s t ∧ t.i = s.i ∧ SameStack s t ∧ SameRest s t

/-- DXY0 draws nothing, cannot fault whatever I holds, and clears VF, in every configuration (43_display_keypad.md R154
(d), the spec's decision D14). -/
def Obligations.DrawNoRowsClearsFlag : Prop :=
  ∀ (x y : Nibble) (s : State), ∃ t,
    exec (.drw x y 0) s = .next t ∧ getReg t 15 = 0 ∧ WritesOnlyReg 15 s t

/-- With at least 15 rows no two bits of one sprite land on the same pixel (43_display_keypad.md R154 (e)). -/
def Obligations.SpriteBitsLandOnDistinctPixels : Prop :=
  ∀ (x y n : Nibble) (s : State) (px py : Nat), s.cfg.Valid → 15 ≤ s.cfg.fbHeight →
    spriteVisits s x y n px py ≤ 1

/-- The same sprite drawn twice at the same place restores memory, and the second draw collides if a sprite bit landed
on a clear pixel (43_display_keypad.md R154 (g)); the sprite's bytes lie outside the framebuffer and its coordinates are
not in VF, or the second draw would not be the same one. -/
def Obligations.DrawTwiceRestoresFramebuffer : Prop :=
  ∀ (x y n : Nibble) (s : State), s.cfg.Valid → s.i.toNat + n.toNat ≤ s.cfg.fbOrigin → x ≠ 15 → y ≠ 15 →
    ∃ t u, exec (.drw x y n) s = .next t ∧ exec (.drw x y n) t = .next u ∧ SameMem s u
      ∧ ((∃ px py, px < s.cfg.fbWidth ∧ py < s.cfg.fbHeight ∧ 1 ≤ spriteVisits s x y n px py
          ∧ pixel s.cfg s.mem px py = false) → getReg u 15 = 1)

/-- The pixel translator's layout, row-major with the leftmost of eight pixels in bit 7, and that it maps the pixels of
a valid configuration one to one into the bits of [FB_ORIGIN, MEM_SIZE) (20_memory.md R58, the spec's decision D5). The
first two clauses are R58's "n div 8 = y × (FB_WIDTH div 8) + (x div 8) and n mod 8 = x mod 8". -/
def Obligations.PixelTranslatorIsOneToOne : Prop :=
  ∀ (c : Config) (x y x' y' : Nat), c.Valid → x < c.fbWidth → y < c.fbHeight → x' < c.fbWidth → y' < c.fbHeight →
    fbAddr c x y = c.fbOrigin + (y * (c.fbWidth / 8) + x / 8) ∧ fbBit c x y = 7 - x % 8
      ∧ c.fbOrigin ≤ fbAddr c x y ∧ fbAddr c x y < c.memSize ∧ fbBit c x y < 8
      ∧ (fbAddr c x y = fbAddr c x' y' → fbBit c x y = fbBit c x' y' → x = x' ∧ y = y')

/-! ## Transfers -/

/-- FX55 inside memory: V[k] goes to M[I + k] for k from 0 to X, nothing else changes (44_index_memory_transfer.md R160,
R161; the unbounded check is the spec's decision D23). -/
def Obligations.StoreRegistersWritesMemory : Prop :=
  ∀ (x : Nibble) (s : State), s.i.toNat + x.toNat < s.cfg.memSize → ∃ t,
    exec (.storeRegs x) s = .next t
      ∧ (∀ k : Nibble, k.toNat ≤ x.toNat → memRead t.mem (s.i.toNat + k.toNat) = getReg s k)
      ∧ SameMemOutside s.i.toNat (x.toNat + 1) s t
      ∧ t.pc = s.pc + 2 ∧ SameRegs s t ∧ t.i = s.i ∧ SameStack s t ∧ SameRest s t

/-- FX65 inside memory: V[k] := M[I + k] for k from 0 to X, nothing else changes (44_index_memory_transfer.md R160,
R162; the unbounded check is the spec's decision D23). -/
def Obligations.LoadRegistersReadsMemory : Prop :=
  ∀ (x : Nibble) (s : State), s.i.toNat + x.toNat < s.cfg.memSize → ∃ t,
    exec (.loadRegs x) s = .next t
      ∧ (∀ k : Nibble, k.toNat ≤ x.toNat → getReg t k = memRead s.mem (s.i.toNat + k.toNat))
      ∧ SameRegsBut (fun k => k.toNat ≤ x.toNat) s t
      ∧ t.pc = s.pc + 2 ∧ t.i = s.i ∧ SameMem s t ∧ SameStack s t ∧ SameRest s t

/-- FX55, FX65 and DXYN whose bytes do not all lie in memory fault and change nothing but RUN and FAULT
(44_index_memory_transfer.md R160, 43_display_keypad.md R151, 60_exceptions.md R178, R179; the spec's decisions D7, D12,
D19, D23). -/
def Obligations.TransfersOutsideMemoryFault : Prop :=
  (∀ (x : Nibble) (s : State), s.cfg.memSize ≤ s.i.toNat + x.toNat →
      exec (.storeRegs x) s = .next { s with
        run := .faulted, fault := some (.outOfBoundsTransfer s.pc .write s.i (x.toNat + 1)) }
      ∧ exec (.loadRegs x) s = .next { s with
        run := .faulted, fault := some (.outOfBoundsTransfer s.pc .read s.i (x.toNat + 1)) })
    ∧ (∀ (x y n : Nibble) (s : State), 0 < n.toNat → s.cfg.memSize < s.i.toNat + n.toNat →
      exec (.drw x y n) s = .next { s with
        run := .faulted, fault := some (.outOfBoundsTransfer s.pc .read s.i n.toNat) })

/-- What FX55 stores, FX65 with the same I and X loads back into V[0..X], whatever the registers hold in between
(44_index_memory_transfer.md R160 to R162). -/
def Obligations.StoreThenLoadRestoresRegisters : Prop :=
  ∀ (x : Nibble) (s u : State), s.i.toNat + x.toNat < s.cfg.memSize →
    ∃ t, exec (.storeRegs x) s = .next t ∧
      (u.cfg = t.cfg → u.mem = t.mem → u.i = t.i →
        ∃ w, exec (.loadRegs x) u = .next w ∧ ∀ k : Nibble, k.toNat ≤ x.toNat → getReg w k = getReg s k)

/-- A store is seen by the very next fetch: when FX55 has stored V[k] and V[k + 1] at the address the next instruction is
fetched from, the step after it runs the instruction those two bytes decode to (20_memory.md R64). -/
def Obligations.StoreIsSeenByNextFetch : Prop :=
  ∀ (x : Nibble) (s t : State) (k k' : Nibble) (j : Instr), s.cfg.Valid → s.run = .running →
    s.i.toNat + x.toNat < s.cfg.memSize → exec (.storeRegs x) s = .next t →
    k'.toNat = k.toNat + 1 → k'.toNat ≤ x.toNat → t.pc.toNat = s.i.toNat + k.toNat →
    decode [getReg s k, getReg s k'] = .ok (j, []) → step t = exec j t

/-! ## Rules about every instruction -/

/-- Which state an instruction may write, PC apart, which every instruction writes (10_state.md R40; R26, R27, R30, R31,
R34): a register, I, the stack, SP, the random port (the model's fields, log 3); which bytes of memory; RUN and FAULT by
a fault only, and which instructions can fault; the host's state never. That DXYN stays in the framebuffer region needs a
configuration that obeys 00_scope.md R7. -/
def Obligations.WriteMatrixHolds : Prop :=
  ∀ (i : Instr) (s t : State), exec i s = .next t →
    (∀ k, getReg t k ≠ getReg s k → mayWriteReg i k = true)
      ∧ (t.i ≠ s.i → (∃ nnn, i = .ldI nnn) ∨ ∃ x, i = .addI x)
      ∧ (t.mem ≠ s.mem → i = .cls ∨ (∃ x y n, i = .drw x y n) ∨ ∃ x, i = .storeRegs x)
      ∧ (∀ a, memRead t.mem a ≠ memRead s.mem a →
        (i = .cls ∧ s.cfg.fbOrigin ≤ a ∧ a < s.cfg.memSize)
          ∨ (∃ x y n, i = .drw x y n ∧ s.cfg.fbOrigin ≤ a ∧ (s.cfg.Valid → a < s.cfg.memSize))
          ∨ ∃ x, i = .storeRegs x ∧ ∃ k : Nat, k ≤ x.toNat ∧ a = s.i.toNat + k)
      ∧ (t.stack ≠ s.stack → ∃ nnn, i = .call nnn)
      ∧ (t.sp ≠ s.sp → i = .ret ∨ ∃ nnn, i = .call nnn)
      ∧ (¬ SameRand s t → ∃ x nn, i = .rnd x nn)
      ∧ (¬ SameRun s t →
        (∃ f, t = { s with run := .faulted, fault := some f } ∧ faultPc f = s.pc)
          ∧ (i = .ret ∨ (∃ nnn, i = .call nnn) ∨ (∃ x y n, i = .drw x y n) ∨ (∃ x, i = .storeRegs x)
            ∨ ∃ x, i = .loadRegs x))
      ∧ SameHost s t

/-- No instruction reads a timer: changing DT and ST before it changes nothing but DT and ST after it (10_state.md R30,
60_exceptions.md R182). -/
def Obligations.TimersAreNeverRead : Prop :=
  ∀ (i : Instr) (s : State) (d e : Byte),
    exec i { s with dt := d, st := e } = mapNext (fun t => { t with dt := d, st := e }) (exec i s)

/-- Only EX9E and EXA1 read KEYS (10_state.md R31, R40). -/
def Obligations.KeysAreReadByKeySkipsOnly : Prop :=
  ∀ (i : Instr) (s : State) (ks : Word), (∀ x, i ≠ .skp x) → (∀ x, i ≠ .sknp x) →
    exec i { s with keys := ks } = mapNext (fun t => { t with keys := ks }) (exec i s)

/-- The random port is asked by CXNN "and at no other time" (41_immediate_index_random.md R124): for every other
instruction the bytes that wait there change nothing and stay. The queue and the counter are the model's form of the
port (log 3). -/
def Obligations.RandomPortIsAskedByRndOnly : Prop :=
  ∀ (i : Instr) (s : State) (q : List Byte) (n : Nat), (∀ x nn, i ≠ .rnd x nn) →
    exec i { s with randQueue := q, randDrawn := n } =
      mapNext (fun t => { t with randQueue := q, randDrawn := n }) (exec i s)

/-- A step that faults undoes all it did: the state is the one before it but for RUN and the record of a fault whose
pc0 is PC (60_exceptions.md R178, R179; the spec's decision D7). -/
def Obligations.FaultingStepChangesNothingElse : Prop :=
  ∀ s t : State, step s = .next t → s.run = .running → t.run = .faulted →
    ∃ f, faultPc f = s.pc ∧ t = { s with run := .faulted, fault := some f }

/-- "No instruction changes RUN except by faulting" (10_state.md R34), and a step never enters HALTED. -/
def Obligations.RunChangesOnlyByFaulting : Prop :=
  ∀ s t : State, step s = .next t → t.run = s.run ∨ (s.run = .running ∧ t.run = .faulted)

/-! ## Invariants -/

/-- Every step keeps memory canonical and inside the address space (20_memory.md R50, R61; the canonical form is the
model's own, log 18). -/
def Obligations.StepKeepsMemoryInv : Prop :=
  ∀ s t : State, MemoryInv s → step s = .next t → MemoryInv t

/-- Every step keeps the fault record in agreement with RUN and PC (10_state.md R35, 60_exceptions.md R179). -/
def Obligations.StepKeepsFaultRecordInv : Prop :=
  ∀ s t : State, FaultRecordInv s → step s = .next t → FaultRecordInv t

/-- Every step keeps PC at most 0x10FE (10_state.md R41) and every stack slot at most MEM_SIZE, which is the model's
inference from the fetch bound of R41 and 40_control_flow.md R103. -/
def Obligations.StepKeepsPcBoundInv : Prop :=
  ∀ s t : State, PcBoundInv s → step s = .next t → PcBoundInv t

/-- The reset state of every valid configuration meets all the invariants, and so does `State.reset`
(10_state.md R38). -/
def Obligations.ResetMeetsInv : Prop :=
  (∀ c : Config, c.Valid → StateInv (State.resetWith c)) ∧ StateInv State.reset

/-- Every host transaction keeps all the invariants, `step` among them (60_exceptions.md R185). -/
def Obligations.TransactionKeepsInv : Prop :=
  ∀ (tr : Transaction) (s : State), StateInv s → StateInv (transact tr s).1

/-- Every state that transactions lead to from reset meets all the invariants (60_exceptions.md R185,
70_reset_and_hazards.md R200). -/
def Obligations.ReachableStatesMeetInv : Prop :=
  ∀ s : State, Reachable s → StateInv s

/-- "they stay 0 in every run that begins at reset" (10_state.md R30): no transaction makes a timer nonzero. -/
def Obligations.TimersStayZero : Prop :=
  ∀ (tr : Transaction) (s : State), TimersZero s → TimersZero (transact tr s).1

/-! ## Run states and the host interface -/

/-- The run-state machine of 60_exceptions.md R171 with the replies of `step` (the spec's decision D18). -/
def Obligations.RunStateMachine : Prop :=
  ∀ s : State, s.cfg.Valid →
    (transact .reset s).1.run = .running
      ∧ (transact .halt s).1 = { s with run := if s.run = .running then .halted else s.run }
      ∧ (transact .resume s).1 = { s with run := if s.run = .halted then .running else s.run }
      ∧ (s.run = .running →
        ((transact .step s).1.run = .running ∧ (transact .step s).2 = .ok)
          ∨ ∃ f, (transact .step s).1 = { s with run := .faulted, fault := some f }
            ∧ (transact .step s).2 = .faulted f)
      ∧ (s.run ≠ .running → transact .step s = (s, .notRunning))
      ∧ (∀ tr : Transaction, tr ≠ .reset → tr ≠ .halt → tr ≠ .resume → tr ≠ .step →
        SameRun s (transact tr s).1)

/-- FAULTED is left by reset only, and until then registers, I, PC, stack and the fault record stay as they are
(60_exceptions.md R175, the spec's decision D18). -/
def Obligations.FaultedUntilReset : Prop :=
  ∀ (ts : List Transaction) (s : State), s.run = .faulted → (∀ tr ∈ ts, tr ≠ .reset) →
    (transactAll ts s).run = .faulted ∧ (transactAll ts s).fault = s.fault
      ∧ (transactAll ts s).v = s.v ∧ (transactAll ts s).i = s.i ∧ (transactAll ts s).pc = s.pc
      ∧ (transactAll ts s).stack = s.stack ∧ (transactAll ts s).sp = s.sp

/-- `load` copies an image that fits to PROG_ORIGIN and nothing else, and rejects one that does not with no change
(60_exceptions.md R186; details the spec's decision D21). -/
def Obligations.LoadCopiesImageOrNothing : Prop :=
  ∀ (rom : List Byte) (s : State), s.cfg.Valid →
    (s.cfg.progOrigin + rom.length ≤ s.cfg.fbOrigin →
      (transact (.load rom) s).2 = .ok
        ∧ (∀ (k : Nat) (h : k < rom.length),
          memRead (transact (.load rom) s).1.mem (s.cfg.progOrigin + k) = rom[k])
        ∧ SameMemOutside s.cfg.progOrigin rom.length s (transact (.load rom) s).1
        ∧ (transact (.load rom) s).1 = { s with mem := (transact (.load rom) s).1.mem })
      ∧ (s.cfg.fbOrigin < s.cfg.progOrigin + rom.length →
        transact (.load rom) s = (s, .loadOverflow rom.length))

/-- Keys, timers, the framebuffer, the random port and inspection at the host's side (60_exceptions.md R188 to R192; that
a timer stops at 0 is the spec's decision D20; that a supplied random byte waits behind those already supplied is the
model's form of the port, log 3). -/
def Obligations.HostReadsAndWrites : Prop :=
  ∀ s : State, s.cfg.Valid →
    (∀ bitmap, transact (.setKeys bitmap) s = ({ s with keys := bitmap }, .ok))
      ∧ transact .getTimers s = (s, .timers s.dt s.st)
      ∧ (∀ b, transact (.rand b) s = ({ s with randQueue := s.randQueue ++ [b] }, .ok))
      ∧ transact .inspect s = (s, .state s)
      ∧ (transact .tickTimers s).1.dt.toNat = s.dt.toNat - 1
      ∧ (transact .tickTimers s).1.st.toNat = s.st.toNat - 1
      ∧ (transact .tickTimers s).1 =
        { s with dt := (transact .tickTimers s).1.dt, st := (transact .tickTimers s).1.st }
      ∧ ∃ bytes, transact .readFramebuffer s = (s, .framebuffer bytes)
        ∧ bytes.length = s.cfg.memSize - s.cfg.fbOrigin
        ∧ ∀ (k : Nat) (h : k < bytes.length), bytes[k] = memRead s.mem (s.cfg.fbOrigin + k)

/-- What `reset` leaves, in any run state (70_reset_and_hazards.md R200, 10_state.md R38; all but PC's value are the
spec's decisions D17 to D19). -/
def Obligations.ResetLeavesResetValues : Prop :=
  ∀ s : State, s.cfg.Valid →
    (transact .reset s).1.pc.toNat = s.cfg.progOrigin
      ∧ (∀ k, getReg (transact .reset s).1 k = 0) ∧ (transact .reset s).1.i = 0
      ∧ (transact .reset s).1.sp.val = 0 ∧ (∀ k : Nat, k < 16 → (transact .reset s).1.stack[k]? = some 0)
      ∧ (∀ a, memRead (transact .reset s).1.mem a = 0)
      ∧ (transact .reset s).1.dt = 0 ∧ (transact .reset s).1.st = 0 ∧ (transact .reset s).1.keys = 0
      ∧ (transact .reset s).1.run = .running ∧ (transact .reset s).1.fault = none
      ∧ (transact .reset s).1.cfg = s.cfg

/-- The fault kinds with their codes, 0 for none, and exactly when each is raised: by a step of a RUNNING core, which
records the fault it replies, and by `load` (60_exceptions.md R177, R180; the codes are the spec's decision D19, the
transfer fault of DXYN its decision D12). -/
def Obligations.FaultKindsAndCodes : Prop :=
  (kindCode none = 0 ∧ kindCode (some .outOfBoundsFetch) = 1 ∧ kindCode (some .outOfBoundsTransfer) = 2
      ∧ kindCode (some .stackOverflow) = 3 ∧ kindCode (some .stackUnderflow) = 4
      ∧ kindCode (some .unrecognizedInstruction) = 5 ∧ kindCode (some .loadOverflow) = 6)
    ∧ (∀ s : State, s.cfg.Valid → s.run = .running →
      replyKind (transact .step s).2 = stepRaises s
        ∧ ∀ k, stepRaises s = some k →
          ∃ f, (transact .step s).2 = .faulted f ∧ (transact .step s).1.fault = some f
            ∧ faultCode (transact .step s).1.fault = kindCode (some k))
    ∧ ∀ (rom : List Byte) (s : State), s.cfg.Valid →
      replyCode (transact (.load rom) s).2 = if s.cfg.fbOrigin < s.cfg.progOrigin + rom.length then 6 else 0
end

