-- ==== Sys2Proof/Laws/Decode.lean ====
section
/-! SUPPORT. The fields of an encoded word, and what the decoder can answer. -/

namespace Sys2Proof

/-! ## Fields of the three word shapes -/

@[simp] theorem fieldC_wordCNNN (c : Nibble) (nnn : Addr12) : fieldC (wordCNNN c nnn) = c := by
  apply BitVec.eq_of_getLsbD_eq
  intro i hi
  simp only [fieldC, wordCNNN, BitVec.getLsbD_extractLsb', BitVec.getLsbD_append]
  simp [hi]

@[simp] theorem fieldNNN_wordCNNN (c : Nibble) (nnn : Addr12) : fieldNNN (wordCNNN c nnn) = nnn := by
  apply BitVec.eq_of_getLsbD_eq
  intro i hi
  simp only [fieldNNN, wordCNNN, BitVec.getLsbD_extractLsb', BitVec.getLsbD_append]
  simp [hi]

@[simp] theorem fieldC_wordCXNN (c x : Nibble) (nn : Byte) : fieldC (wordCXNN c x nn) = c := by
  apply BitVec.eq_of_getLsbD_eq
  intro i hi
  simp only [fieldC, wordCXNN, BitVec.getLsbD_extractLsb', BitVec.getLsbD_append]
  rw [if_neg (by omega), if_neg (by omega), show 12 + i - 8 - 4 = i by omega]
  simp [hi]

@[simp] theorem fieldX_wordCXNN (c x : Nibble) (nn : Byte) : fieldX (wordCXNN c x nn) = x := by
  apply BitVec.eq_of_getLsbD_eq
  intro i hi
  simp only [fieldX, wordCXNN, BitVec.getLsbD_extractLsb', BitVec.getLsbD_append]
  rw [if_neg (by omega), if_pos (by omega), show 8 + i - 8 = i by omega]
  simp [hi]

@[simp] theorem fieldNN_wordCXNN (c x : Nibble) (nn : Byte) : fieldNN (wordCXNN c x nn) = nn := by
  apply BitVec.eq_of_getLsbD_eq
  intro i hi
  simp only [fieldNN, wordCXNN, BitVec.getLsbD_extractLsb', BitVec.getLsbD_append]
  simp [hi]

@[simp] theorem fieldC_wordCXYN (c x y n : Nibble) : fieldC (wordCXYN c x y n) = c := by
  apply BitVec.eq_of_getLsbD_eq
  intro i hi
  simp only [fieldC, wordCXYN, BitVec.getLsbD_extractLsb', BitVec.getLsbD_append]
  rw [if_neg (by omega), if_neg (by omega), if_neg (by omega), show 12 + i - 4 - 4 - 4 = i by omega]
  simp [hi]

@[simp] theorem fieldX_wordCXYN (c x y n : Nibble) : fieldX (wordCXYN c x y n) = x := by
  apply BitVec.eq_of_getLsbD_eq
  intro i hi
  simp only [fieldX, wordCXYN, BitVec.getLsbD_extractLsb', BitVec.getLsbD_append]
  rw [if_neg (by omega), if_neg (by omega), if_pos (by omega), show 8 + i - 4 - 4 = i by omega]
  simp [hi]

@[simp] theorem fieldY_wordCXYN (c x y n : Nibble) : fieldY (wordCXYN c x y n) = y := by
  apply BitVec.eq_of_getLsbD_eq
  intro i hi
  simp only [fieldY, wordCXYN, BitVec.getLsbD_extractLsb', BitVec.getLsbD_append]
  rw [if_neg (by omega), if_pos (by omega), show 4 + i - 4 = i by omega]
  simp [hi]

@[simp] theorem fieldN_wordCXYN (c x y n : Nibble) : fieldN (wordCXYN c x y n) = n := by
  apply BitVec.eq_of_getLsbD_eq
  intro i hi
  simp only [fieldN, wordCXYN, BitVec.getLsbD_extractLsb', BitVec.getLsbD_append]
  simp [hi]

/-! ## A word is made of its fields -/

theorem wordCNNN_fields (w : Word) : wordCNNN (fieldC w) (fieldNNN w) = w := by
  apply BitVec.eq_of_getLsbD_eq
  intro i hi
  simp only [fieldC, fieldNNN, wordCNNN, BitVec.getLsbD_extractLsb', BitVec.getLsbD_append]
  split
  · simp [*]
  · have e : 12 + (i - 12) = i := by omega
    have : i - 12 < 4 := by omega
    simp [e, this]

theorem wordCXNN_fields (w : Word) : wordCXNN (fieldC w) (fieldX w) (fieldNN w) = w := by
  apply BitVec.eq_of_getLsbD_eq
  intro i hi
  simp only [fieldC, fieldX, fieldNN, wordCXNN, BitVec.getLsbD_extractLsb', BitVec.getLsbD_append]
  split
  · simp [*]
  · split
    · have e : 8 + (i - 8) = i := by omega
      simp [*]
    · have e : 12 + (i - 8 - 4) = i := by omega
      have : i - 8 - 4 < 4 := by omega
      simp [e, this]

theorem wordCXYN_fields (w : Word) : wordCXYN (fieldC w) (fieldX w) (fieldY w) (fieldN w) = w := by
  apply BitVec.eq_of_getLsbD_eq
  intro i hi
  simp only [fieldC, fieldX, fieldY, fieldN, wordCXYN, BitVec.getLsbD_extractLsb', BitVec.getLsbD_append]
  split
  · simp [*]
  · split
    · have e : 4 + (i - 4) = i := by omega
      simp [*]
    · split
      · have e : 8 + (i - 4 - 4) = i := by omega
        simp [*]
      · have e : 12 + (i - 4 - 4 - 4) = i := by omega
        have : i - 4 - 4 - 4 < 4 := by omega
        simp [e, this]

/-- The two bytes of a word make the word again (20_memory.md R52). -/
@[simp] theorem wordOfBytes_hiByte_loByte (w : Word) : wordOfBytes (hiByte w) (loByte w) = w := by
  apply BitVec.eq_of_getLsbD_eq
  intro i hi
  simp only [hiByte, loByte, wordOfBytes, BitVec.getLsbD_extractLsb', BitVec.getLsbD_append]
  split
  · simp [*]
  · have e : 8 + (i - 8) = i := by omega
    have : i - 8 < 8 := by omega
    simp [e, this]

/-- A word has every class in [0, 15], and decoding goes by it (30_encoding.md R83). -/
theorem decode_bytesOfWord (w : Word) (rest : List Byte) :
    decode (bytesOfWord w ++ rest) =
      match decodeWord w with
      | .ok i => .ok (i, rest)
      | .error r => .error r := by
  cases hd : decodeWord w <;> simp [bytesOfWord, decode, hd]

/-- Two bytes decode to what their word decodes to. -/
theorem decode_pair_iff (hi lo : Byte) (i : Instr) :
    decode [hi, lo] = .ok (i, []) ↔ decodeWord (wordOfBytes hi lo) = .ok i := by
  show (match decodeWord (wordOfBytes hi lo) with
    | .ok i => Except.ok (i, [])
    | .error r => Except.error r) = _ ↔ _
  split <;> simp_all

end Sys2Proof
end

