-- ==== Sys2Proof/Laws/Memory.lean ====
section
/-! SUPPORT. What the memory operations do: reading after writing, the canonical form, and the bound on addresses. -/

namespace Sys2Proof.Machine

/-! ## Reading after writing -/

@[simp] theorem memRead_nil (a : Nat) : memRead [] a = unlistedByte := rfl

theorem memRead_cons (b : Nat) (u : Byte) (m : Memory) (a : Nat) :
    memRead ((b, u) :: m) a = if b = a then u else memRead m a := rfl

/-- An address that memory does not list reads as the reset contents. -/
theorem memRead_of_not_listed {m : Memory} {a : Nat} (h : ∀ c ∈ m, c.1 ≠ a) : memRead m a = unlistedByte := by
  induction m with
  | nil => rfl
  | cons c m ih =>
    obtain ⟨b, u⟩ := c
    have hb : b ≠ a := h (b, u) (by simp)
    rw [memRead_cons, if_neg hb, ih fun c hc => h c (List.mem_cons_of_mem _ hc)]

theorem memErase_not_listed (m : Memory) (a : Nat) : ∀ c ∈ memErase m a, c.1 ≠ a := by
  intro c hc
  simpa using (List.mem_filter.mp hc).2

theorem memRead_memErase (m : Memory) (a b : Nat) :
    memRead (memErase m a) b = if b = a then unlistedByte else memRead m b := by
  split
  · next h => rw [h]; exact memRead_of_not_listed (memErase_not_listed m a)
  · next h =>
    induction m with
    | nil => rfl
    | cons c m ih =>
      obtain ⟨e, u⟩ := c
      by_cases he : e = a
      · have : memErase ((e, u) :: m) a = memErase m a := by simp [memErase, he]
        rw [this, ih, memRead_cons, if_neg]
        rintro rfl
        exact h he
      · have : memErase ((e, u) :: m) a = (e, u) :: memErase m a := by simp [memErase, he]
        rw [this, memRead_cons, memRead_cons, ih]

theorem memRead_memInsert {m : Memory} {a : Nat} (h : ∀ c ∈ m, c.1 ≠ a) (v : Byte) (b : Nat) :
    memRead (memInsert m a v) b = if b = a then v else memRead m b := by
  induction m with
  | nil => simp [memInsert, memRead_cons, eq_comm]
  | cons c m ih =>
    obtain ⟨e, u⟩ := c
    have he : e ≠ a := h (e, u) (by simp)
    have hm : ∀ c ∈ m, c.1 ≠ a := fun c hc => h c (List.mem_cons_of_mem _ hc)
    rw [memInsert]
    split
    · rw [memRead_cons]
      simp only [eq_comm]
    · rw [memRead_cons, memRead_cons, ih hm]
      by_cases hb : b = a
      · subst hb; simp [he]
      · simp [hb]

/-- A read after a write: the value written at its address, the old byte everywhere else. -/
@[simp] theorem memRead_memWrite (m : Memory) (a : Nat) (v : Byte) (b : Nat) :
    memRead (memWrite m a v) b = if b = a then v else memRead m b := by
  rw [memWrite]
  split
  · next h => rw [memRead_memErase, h]
  · rw [memRead_memInsert (memErase_not_listed m a), memRead_memErase]
    split <;> rfl

/-- A read after a run of bytes has been stored. -/
theorem memRead_storeBytes (bs : List Byte) (m : Memory) (a b : Nat) :
    memRead (storeBytes m a bs) b = if a ≤ b ∧ b < a + bs.length then bs.getD (b - a) 0 else memRead m b := by
  induction bs generalizing m a with
  | nil =>
    have : ¬ (a ≤ b ∧ b < a + ([] : List Byte).length) := by simp
    rw [if_neg this]; rfl
  | cons c bs ih =>
    rw [storeBytes, ih, memRead_memWrite]
    rcases Nat.lt_trichotomy b a with hb | hb | hb
    · have h1 : ¬ (a + 1 ≤ b ∧ b < a + 1 + bs.length) := by omega
      have h2 : ¬ (a ≤ b ∧ b < a + (c :: bs).length) := by omega
      rw [if_neg h1, if_neg h2, if_neg (by omega)]
    · subst hb
      simp
    · obtain ⟨k, rfl⟩ : ∃ k, b = a + 1 + k := ⟨b - (a + 1), by omega⟩
      have e1 : a + 1 + k - (a + 1) = k := by omega
      have e2 : a + 1 + k - a = k + 1 := by omega
      have hl : (c :: bs).length = bs.length + 1 := rfl
      by_cases hk : k < bs.length
      · rw [if_pos (by omega), if_pos (by omega), e1, e2, List.getD_cons_succ]
      · rw [if_neg (by omega), if_neg (by omega), if_neg (by omega)]

theorem memRead_storeBytes_outside {bs : List Byte} {m : Memory} {a b : Nat} (h : b < a ∨ a + bs.length ≤ b) :
    memRead (storeBytes m a bs) b = memRead m b := by
  rw [memRead_storeBytes, if_neg (by omega)]

theorem memRead_storeBytes_inside {bs : List Byte} {m : Memory} {a k : Nat} (h : k < bs.length) :
    memRead (storeBytes m a bs) (a + k) = bs.getD k 0 := by
  rw [memRead_storeBytes, if_pos (by omega), Nat.add_sub_cancel_left]

@[simp] theorem length_loadBytes (m : Memory) (a n : Nat) : (loadBytes m a n).length = n := by simp [loadBytes]

theorem getElem_loadBytes (m : Memory) (a n k : Nat) (h : k < (loadBytes m a n).length) :
    (loadBytes m a n)[k] = memRead m (a + k) := by simp [loadBytes]

theorem loadBytes_congr {m m' : Memory} {a n : Nat}
    (h : ∀ k, k < n → memRead m' (a + k) = memRead m (a + k)) : loadBytes m' a n = loadBytes m a n := by
  simp only [loadBytes]
  exact List.map_congr_left fun k hk => h k (List.mem_range.mp hk)

/-! ## The canonical form -/

theorem memErase_wf {m : Memory} (h : m.wf) (a : Nat) : (memErase m a).wf :=
  ⟨h.1.filter _, fun c hc => h.2 c (List.mem_filter.mp hc).1⟩

theorem mem_memInsert {m : Memory} {a : Nat} {v : Byte} {c : Host.Cell} :
    c ∈ memInsert m a v ↔ c = (a, v) ∨ c ∈ m := by
  induction m with
  | nil => simp [memInsert]
  | cons d m ih =>
    obtain ⟨e, u⟩ := d
    rw [memInsert]
    split
    · simp
    · simp [ih, or_left_comm]

theorem memInsert_wf {m : Memory} (h : m.wf) {a : Nat} (ha : ∀ c ∈ m, c.1 ≠ a) {v : Byte}
    (hv : v ≠ unlistedByte) : (memInsert m a v).wf := by
  refine ⟨?_, fun c hc => ?_⟩
  · induction m with
    | nil => simp [memInsert]
    | cons d m ih =>
      obtain ⟨e, u⟩ := d
      obtain ⟨hd, hm⟩ := List.pairwise_cons.mp h.1
      rw [memInsert]
      split
      · next hlt =>
        refine List.pairwise_cons.mpr ⟨fun c hc => ?_, h.1⟩
        rcases List.mem_cons.mp hc with rfl | hc
        · exact hlt
        · exact Nat.lt_trans hlt (hd c hc)
      · next hge =>
        have hne : e ≠ a := ha (e, u) (by simp)
        refine List.pairwise_cons.mpr ⟨fun c hc => ?_, ih ⟨hm, fun c hc => h.2 c (List.mem_cons_of_mem _ hc)⟩
          fun c hc => ha c (List.mem_cons_of_mem _ hc)⟩
        rcases mem_memInsert.mp hc with rfl | hc
        · show e < a
          omega
        · exact hd c hc
  · rcases mem_memInsert.mp hc with rfl | hc
    · exact hv
    · exact h.2 c hc

/-- A write keeps the canonical form. -/
theorem memWrite_wf {m : Memory} (h : m.wf) (a : Nat) (v : Byte) : (memWrite m a v).wf := by
  rw [memWrite]
  split
  · exact memErase_wf h a
  · next hv => exact memInsert_wf (memErase_wf h a) (memErase_not_listed m a) hv

/-- Storing a run of bytes keeps the canonical form. -/
theorem storeBytes_wf {m : Memory} (h : m.wf) (a : Nat) (bs : List Byte) : (storeBytes m a bs).wf := by
  induction bs generalizing m a with
  | nil => exact h
  | cons b bs ih => exact ih (memWrite_wf h a b) (a + 1)

theorem nil_wf : Memory.wf [] := ⟨List.Pairwise.nil, by simp⟩

/-! ## The bound on listed addresses -/

theorem memWrite_lt {m : Memory} {n a : Nat} (h : ∀ c ∈ m, c.1 < n) (ha : a < n) (v : Byte) :
    ∀ c ∈ memWrite m a v, c.1 < n := by
  intro c hc
  rw [memWrite] at hc
  split at hc
  · exact h c (List.mem_filter.mp hc).1
  · rcases mem_memInsert.mp hc with rfl | hc
    · exact ha
    · exact h c (List.mem_filter.mp hc).1

theorem storeBytes_lt {m : Memory} {n : Nat} (h : ∀ c ∈ m, c.1 < n) (a : Nat) (bs : List Byte)
    (ha : a + bs.length ≤ n) : ∀ c ∈ storeBytes m a bs, c.1 < n := by
  induction bs generalizing m a with
  | nil => exact h
  | cons b bs ih =>
    simp only [List.length_cons] at ha
    exact ih (memWrite_lt h (by omega) b) (a + 1) (by omega)

/-! ## Equal memories are equal data -/

theorem memRead_of_mem {m : Memory} (h : m.wf) {c : Host.Cell} (hc : c ∈ m) : memRead m c.1 = c.2 := by
  induction m with
  | nil => simp at hc
  | cons d m ih =>
    obtain ⟨e, u⟩ := d
    obtain ⟨hd, hm⟩ := List.pairwise_cons.mp h.1
    rw [memRead_cons]
    rcases List.mem_cons.mp hc with rfl | hc
    · simp
    · rw [if_neg (Nat.ne_of_lt (hd c hc)), ih ⟨hm, fun c hc => h.2 c (List.mem_cons_of_mem _ hc)⟩ hc]

/-- Two canonical memories that read alike list the same entries. -/
theorem mem_iff_of_reads {m m' : Memory} (h : m.wf) (h' : m'.wf) (e : ∀ a, memRead m a = memRead m' a)
    (c : Host.Cell) (hc : c ∈ m) : c ∈ m' := by
  have hr : memRead m' c.1 = c.2 := by rw [← e, memRead_of_mem h hc]
  by_cases hl : ∀ d ∈ m', d.1 ≠ c.1
  · rw [memRead_of_not_listed hl] at hr
    exact absurd hr.symm (h.2 c hc)
  · push Not at hl
    obtain ⟨d, hd, he⟩ := hl
    have : d = c := Prod.ext he (by rw [← hr, ← he, memRead_of_mem h' hd])
    exact this ▸ hd

/-- Two canonical memories that read alike are equal as data. -/
theorem memory_ext {m m' : Memory} (h : m.wf) (h' : m'.wf) (e : ∀ a, memRead m a = memRead m' a) : m = m' := by
  have hn : m.Nodup := h.1.imp fun hlt heq => by rw [heq] at hlt; exact Nat.lt_irrefl _ hlt
  have hn' : m'.Nodup := h'.1.imp fun hlt heq => by rw [heq] at hlt; exact Nat.lt_irrefl _ hlt
  have hp : m.Perm m' := (List.perm_ext_iff_of_nodup hn hn').mpr fun c =>
    ⟨mem_iff_of_reads h h' e c, mem_iff_of_reads h' h (fun a => (e a).symm) c⟩
  exact hp.eq_of_pairwise (fun a b _ _ hab hba => absurd hab (Nat.lt_asymm hba)) h.1 h'.1

end Sys2Proof.Machine
end

