-- ==== Sys2Proof/Laws/State.lean ====
section
/-! SUPPORT. One lemma per field per update of State, each true by unfolding, so that no later proof unfolds a
record update. -/

namespace Sys2Proof.Machine

variable (s : State)

/-! ## advance -/

@[simp] theorem advance_cfg : (advance s).cfg = s.cfg := rfl
@[simp] theorem advance_mem : (advance s).mem = s.mem := rfl
@[simp] theorem advance_v : (advance s).v = s.v := rfl
@[simp] theorem advance_i : (advance s).i = s.i := rfl
@[simp] theorem advance_pc : (advance s).pc = s.pc + 2 := rfl
@[simp] theorem advance_stack : (advance s).stack = s.stack := rfl
@[simp] theorem advance_sp : (advance s).sp = s.sp := rfl
@[simp] theorem advance_dt : (advance s).dt = s.dt := rfl
@[simp] theorem advance_st : (advance s).st = s.st := rfl
@[simp] theorem advance_keys : (advance s).keys = s.keys := rfl
@[simp] theorem advance_run : (advance s).run = s.run := rfl
@[simp] theorem advance_fault : (advance s).fault = s.fault := rfl
@[simp] theorem advance_randQueue : (advance s).randQueue = s.randQueue := rfl
@[simp] theorem advance_randDrawn : (advance s).randDrawn = s.randDrawn := rfl

/-! ## jumpTo -/

@[simp] theorem jumpTo_cfg (a : Word) : (jumpTo a s).cfg = s.cfg := rfl
@[simp] theorem jumpTo_mem (a : Word) : (jumpTo a s).mem = s.mem := rfl
@[simp] theorem jumpTo_v (a : Word) : (jumpTo a s).v = s.v := rfl
@[simp] theorem jumpTo_i (a : Word) : (jumpTo a s).i = s.i := rfl
@[simp] theorem jumpTo_pc (a : Word) : (jumpTo a s).pc = a := rfl
@[simp] theorem jumpTo_stack (a : Word) : (jumpTo a s).stack = s.stack := rfl
@[simp] theorem jumpTo_sp (a : Word) : (jumpTo a s).sp = s.sp := rfl
@[simp] theorem jumpTo_dt (a : Word) : (jumpTo a s).dt = s.dt := rfl
@[simp] theorem jumpTo_st (a : Word) : (jumpTo a s).st = s.st := rfl
@[simp] theorem jumpTo_keys (a : Word) : (jumpTo a s).keys = s.keys := rfl
@[simp] theorem jumpTo_run (a : Word) : (jumpTo a s).run = s.run := rfl
@[simp] theorem jumpTo_fault (a : Word) : (jumpTo a s).fault = s.fault := rfl
@[simp] theorem jumpTo_randQueue (a : Word) : (jumpTo a s).randQueue = s.randQueue := rfl
@[simp] theorem jumpTo_randDrawn (a : Word) : (jumpTo a s).randDrawn = s.randDrawn := rfl

/-! ## skipIf -/

@[simp] theorem skipIf_cfg (b : Bool) : (skipIf b s).cfg = s.cfg := rfl
@[simp] theorem skipIf_mem (b : Bool) : (skipIf b s).mem = s.mem := rfl
@[simp] theorem skipIf_v (b : Bool) : (skipIf b s).v = s.v := rfl
@[simp] theorem skipIf_i (b : Bool) : (skipIf b s).i = s.i := rfl
@[simp] theorem skipIf_pc (b : Bool) : (skipIf b s).pc = if b then s.pc + 2 else s.pc := rfl
@[simp] theorem skipIf_stack (b : Bool) : (skipIf b s).stack = s.stack := rfl
@[simp] theorem skipIf_sp (b : Bool) : (skipIf b s).sp = s.sp := rfl
@[simp] theorem skipIf_dt (b : Bool) : (skipIf b s).dt = s.dt := rfl
@[simp] theorem skipIf_st (b : Bool) : (skipIf b s).st = s.st := rfl
@[simp] theorem skipIf_keys (b : Bool) : (skipIf b s).keys = s.keys := rfl
@[simp] theorem skipIf_run (b : Bool) : (skipIf b s).run = s.run := rfl
@[simp] theorem skipIf_fault (b : Bool) : (skipIf b s).fault = s.fault := rfl
@[simp] theorem skipIf_randQueue (b : Bool) : (skipIf b s).randQueue = s.randQueue := rfl
@[simp] theorem skipIf_randDrawn (b : Bool) : (skipIf b s).randDrawn = s.randDrawn := rfl

/-! ## setReg -/

@[simp] theorem setReg_cfg (x : Nibble) (b : Byte) : (setReg x b s).cfg = s.cfg := rfl
@[simp] theorem setReg_mem (x : Nibble) (b : Byte) : (setReg x b s).mem = s.mem := rfl
@[simp] theorem setReg_v (x : Nibble) (b : Byte) : (setReg x b s).v = s.v.set x.toNat b x.isLt := rfl
@[simp] theorem setReg_i (x : Nibble) (b : Byte) : (setReg x b s).i = s.i := rfl
@[simp] theorem setReg_pc (x : Nibble) (b : Byte) : (setReg x b s).pc = s.pc := rfl
@[simp] theorem setReg_stack (x : Nibble) (b : Byte) : (setReg x b s).stack = s.stack := rfl
@[simp] theorem setReg_sp (x : Nibble) (b : Byte) : (setReg x b s).sp = s.sp := rfl
@[simp] theorem setReg_dt (x : Nibble) (b : Byte) : (setReg x b s).dt = s.dt := rfl
@[simp] theorem setReg_st (x : Nibble) (b : Byte) : (setReg x b s).st = s.st := rfl
@[simp] theorem setReg_keys (x : Nibble) (b : Byte) : (setReg x b s).keys = s.keys := rfl
@[simp] theorem setReg_run (x : Nibble) (b : Byte) : (setReg x b s).run = s.run := rfl
@[simp] theorem setReg_fault (x : Nibble) (b : Byte) : (setReg x b s).fault = s.fault := rfl
@[simp] theorem setReg_randQueue (x : Nibble) (b : Byte) : (setReg x b s).randQueue = s.randQueue := rfl
@[simp] theorem setReg_randDrawn (x : Nibble) (b : Byte) : (setReg x b s).randDrawn = s.randDrawn := rfl

/-! ## setIndex -/

@[simp] theorem setIndex_cfg (a : Word) : (setIndex a s).cfg = s.cfg := rfl
@[simp] theorem setIndex_mem (a : Word) : (setIndex a s).mem = s.mem := rfl
@[simp] theorem setIndex_v (a : Word) : (setIndex a s).v = s.v := rfl
@[simp] theorem setIndex_i (a : Word) : (setIndex a s).i = a := rfl
@[simp] theorem setIndex_pc (a : Word) : (setIndex a s).pc = s.pc := rfl
@[simp] theorem setIndex_stack (a : Word) : (setIndex a s).stack = s.stack := rfl
@[simp] theorem setIndex_sp (a : Word) : (setIndex a s).sp = s.sp := rfl
@[simp] theorem setIndex_dt (a : Word) : (setIndex a s).dt = s.dt := rfl
@[simp] theorem setIndex_st (a : Word) : (setIndex a s).st = s.st := rfl
@[simp] theorem setIndex_keys (a : Word) : (setIndex a s).keys = s.keys := rfl
@[simp] theorem setIndex_run (a : Word) : (setIndex a s).run = s.run := rfl
@[simp] theorem setIndex_fault (a : Word) : (setIndex a s).fault = s.fault := rfl
@[simp] theorem setIndex_randQueue (a : Word) : (setIndex a s).randQueue = s.randQueue := rfl
@[simp] theorem setIndex_randDrawn (a : Word) : (setIndex a s).randDrawn = s.randDrawn := rfl

/-! ## setFlag -/

@[simp] theorem setFlag_cfg (b : Bool) : (setFlag b s).cfg = s.cfg := rfl
@[simp] theorem setFlag_mem (b : Bool) : (setFlag b s).mem = s.mem := rfl
@[simp] theorem setFlag_v (b : Bool) : (setFlag b s).v = s.v.set 15 (flagByte b) := rfl
@[simp] theorem setFlag_i (b : Bool) : (setFlag b s).i = s.i := rfl
@[simp] theorem setFlag_pc (b : Bool) : (setFlag b s).pc = s.pc := rfl
@[simp] theorem setFlag_stack (b : Bool) : (setFlag b s).stack = s.stack := rfl
@[simp] theorem setFlag_sp (b : Bool) : (setFlag b s).sp = s.sp := rfl
@[simp] theorem setFlag_dt (b : Bool) : (setFlag b s).dt = s.dt := rfl
@[simp] theorem setFlag_st (b : Bool) : (setFlag b s).st = s.st := rfl
@[simp] theorem setFlag_keys (b : Bool) : (setFlag b s).keys = s.keys := rfl
@[simp] theorem setFlag_run (b : Bool) : (setFlag b s).run = s.run := rfl
@[simp] theorem setFlag_fault (b : Bool) : (setFlag b s).fault = s.fault := rfl
@[simp] theorem setFlag_randQueue (b : Bool) : (setFlag b s).randQueue = s.randQueue := rfl
@[simp] theorem setFlag_randDrawn (b : Bool) : (setFlag b s).randDrawn = s.randDrawn := rfl

/-! ## writeResultAndFlag -/

@[simp] theorem writeResultAndFlag_cfg (x : Nibble) (r : Byte) (b : Bool) : (writeResultAndFlag x r b s).cfg = s.cfg := rfl
@[simp] theorem writeResultAndFlag_mem (x : Nibble) (r : Byte) (b : Bool) : (writeResultAndFlag x r b s).mem = s.mem := rfl
@[simp] theorem writeResultAndFlag_v (x : Nibble) (r : Byte) (b : Bool) : (writeResultAndFlag x r b s).v = (s.v.set x.toNat r x.isLt).set 15 (flagByte b) := rfl
@[simp] theorem writeResultAndFlag_i (x : Nibble) (r : Byte) (b : Bool) : (writeResultAndFlag x r b s).i = s.i := rfl
@[simp] theorem writeResultAndFlag_pc (x : Nibble) (r : Byte) (b : Bool) : (writeResultAndFlag x r b s).pc = s.pc := rfl
@[simp] theorem writeResultAndFlag_stack (x : Nibble) (r : Byte) (b : Bool) : (writeResultAndFlag x r b s).stack = s.stack := rfl
@[simp] theorem writeResultAndFlag_sp (x : Nibble) (r : Byte) (b : Bool) : (writeResultAndFlag x r b s).sp = s.sp := rfl
@[simp] theorem writeResultAndFlag_dt (x : Nibble) (r : Byte) (b : Bool) : (writeResultAndFlag x r b s).dt = s.dt := rfl
@[simp] theorem writeResultAndFlag_st (x : Nibble) (r : Byte) (b : Bool) : (writeResultAndFlag x r b s).st = s.st := rfl
@[simp] theorem writeResultAndFlag_keys (x : Nibble) (r : Byte) (b : Bool) : (writeResultAndFlag x r b s).keys = s.keys := rfl
@[simp] theorem writeResultAndFlag_run (x : Nibble) (r : Byte) (b : Bool) : (writeResultAndFlag x r b s).run = s.run := rfl
@[simp] theorem writeResultAndFlag_fault (x : Nibble) (r : Byte) (b : Bool) : (writeResultAndFlag x r b s).fault = s.fault := rfl
@[simp] theorem writeResultAndFlag_randQueue (x : Nibble) (r : Byte) (b : Bool) : (writeResultAndFlag x r b s).randQueue = s.randQueue := rfl
@[simp] theorem writeResultAndFlag_randDrawn (x : Nibble) (r : Byte) (b : Bool) : (writeResultAndFlag x r b s).randDrawn = s.randDrawn := rfl

/-! ## raiseFault -/

@[simp] theorem raiseFault_cfg (f : Fault) : (raiseFault f s).cfg = s.cfg := rfl
@[simp] theorem raiseFault_mem (f : Fault) : (raiseFault f s).mem = s.mem := rfl
@[simp] theorem raiseFault_v (f : Fault) : (raiseFault f s).v = s.v := rfl
@[simp] theorem raiseFault_i (f : Fault) : (raiseFault f s).i = s.i := rfl
@[simp] theorem raiseFault_pc (f : Fault) : (raiseFault f s).pc = s.pc := rfl
@[simp] theorem raiseFault_stack (f : Fault) : (raiseFault f s).stack = s.stack := rfl
@[simp] theorem raiseFault_sp (f : Fault) : (raiseFault f s).sp = s.sp := rfl
@[simp] theorem raiseFault_dt (f : Fault) : (raiseFault f s).dt = s.dt := rfl
@[simp] theorem raiseFault_st (f : Fault) : (raiseFault f s).st = s.st := rfl
@[simp] theorem raiseFault_keys (f : Fault) : (raiseFault f s).keys = s.keys := rfl
@[simp] theorem raiseFault_run (f : Fault) : (raiseFault f s).run = .faulted := rfl
@[simp] theorem raiseFault_fault (f : Fault) : (raiseFault f s).fault = some f := rfl
@[simp] theorem raiseFault_randQueue (f : Fault) : (raiseFault f s).randQueue = s.randQueue := rfl
@[simp] theorem raiseFault_randDrawn (f : Fault) : (raiseFault f s).randDrawn = s.randDrawn := rfl

/-! ## dropRandByte -/

@[simp] theorem dropRandByte_cfg : (dropRandByte s).cfg = s.cfg := rfl
@[simp] theorem dropRandByte_mem : (dropRandByte s).mem = s.mem := rfl
@[simp] theorem dropRandByte_v : (dropRandByte s).v = s.v := rfl
@[simp] theorem dropRandByte_i : (dropRandByte s).i = s.i := rfl
@[simp] theorem dropRandByte_pc : (dropRandByte s).pc = s.pc := rfl
@[simp] theorem dropRandByte_stack : (dropRandByte s).stack = s.stack := rfl
@[simp] theorem dropRandByte_sp : (dropRandByte s).sp = s.sp := rfl
@[simp] theorem dropRandByte_dt : (dropRandByte s).dt = s.dt := rfl
@[simp] theorem dropRandByte_st : (dropRandByte s).st = s.st := rfl
@[simp] theorem dropRandByte_keys : (dropRandByte s).keys = s.keys := rfl
@[simp] theorem dropRandByte_run : (dropRandByte s).run = s.run := rfl
@[simp] theorem dropRandByte_fault : (dropRandByte s).fault = s.fault := rfl
@[simp] theorem dropRandByte_randQueue : (dropRandByte s).randQueue = s.randQueue.tail := rfl
@[simp] theorem dropRandByte_randDrawn : (dropRandByte s).randDrawn = s.randDrawn + 1 := rfl

/-! ## clearFramebuffer -/

@[simp] theorem clearFramebuffer_cfg : (clearFramebuffer s).cfg = s.cfg := rfl
@[simp] theorem clearFramebuffer_mem : (clearFramebuffer s).mem = storeBytes s.mem s.cfg.fbOrigin (List.replicate (s.cfg.memSize - s.cfg.fbOrigin) 0) := rfl
@[simp] theorem clearFramebuffer_v : (clearFramebuffer s).v = s.v := rfl
@[simp] theorem clearFramebuffer_i : (clearFramebuffer s).i = s.i := rfl
@[simp] theorem clearFramebuffer_pc : (clearFramebuffer s).pc = s.pc := rfl
@[simp] theorem clearFramebuffer_stack : (clearFramebuffer s).stack = s.stack := rfl
@[simp] theorem clearFramebuffer_sp : (clearFramebuffer s).sp = s.sp := rfl
@[simp] theorem clearFramebuffer_dt : (clearFramebuffer s).dt = s.dt := rfl
@[simp] theorem clearFramebuffer_st : (clearFramebuffer s).st = s.st := rfl
@[simp] theorem clearFramebuffer_keys : (clearFramebuffer s).keys = s.keys := rfl
@[simp] theorem clearFramebuffer_run : (clearFramebuffer s).run = s.run := rfl
@[simp] theorem clearFramebuffer_fault : (clearFramebuffer s).fault = s.fault := rfl
@[simp] theorem clearFramebuffer_randQueue : (clearFramebuffer s).randQueue = s.randQueue := rfl
@[simp] theorem clearFramebuffer_randDrawn : (clearFramebuffer s).randDrawn = s.randDrawn := rfl

/-! ## Registers -/

/-- Reading a register after a write of a register. -/
@[simp] theorem getReg_setReg (x k : Nibble) (b : Byte) :
    getReg (setReg x b s) k = if k = x then b else getReg s k := by
  simp only [getReg, setReg, Vector.getElem_set]
  split_ifs with h1 h2 h2
  · rfl
  · exact absurd (BitVec.eq_of_toNat_eq h1).symm h2
  · exact absurd (by rw [h2]) h1
  · rfl

@[simp] theorem getReg_advance (k : Nibble) : getReg (advance s) k = getReg s k := rfl
@[simp] theorem getReg_jumpTo (a : Word) (k : Nibble) : getReg (jumpTo a s) k = getReg s k := rfl
@[simp] theorem getReg_skipIf (b : Bool) (k : Nibble) : getReg (skipIf b s) k = getReg s k := rfl
@[simp] theorem getReg_setIndex (a : Word) (k : Nibble) : getReg (setIndex a s) k = getReg s k := rfl
@[simp] theorem getReg_raiseFault (f : Fault) (k : Nibble) : getReg (raiseFault f s) k = getReg s k := rfl
@[simp] theorem getReg_dropRandByte (k : Nibble) : getReg (dropRandByte s) k = getReg s k := rfl
@[simp] theorem getReg_clearFramebuffer (k : Nibble) : getReg (clearFramebuffer s) k = getReg s k := rfl

/-- VF after a flag write; the other registers keep theirs. -/
@[simp] theorem getReg_setFlag (b : Bool) (k : Nibble) :
    getReg (setFlag b s) k = if k = 15 then flagByte b else getReg s k := getReg_setReg s 15 k (flagByte b)

/-- The flag wins over the result when both go to VF (42_alu.md R131). -/
@[simp] theorem getReg_writeResultAndFlag (x k : Nibble) (r : Byte) (b : Bool) :
    getReg (writeResultAndFlag x r b s) k = if k = 15 then flagByte b else if k = x then r else getReg s k := by
  rw [writeResultAndFlag, getReg_setFlag, getReg_setReg]

@[simp] theorem nextRandByte_advance : nextRandByte (advance s) = nextRandByte s := rfl

/-! ## Reset -/

@[simp] theorem resetWith_cfg (c : Config) : (State.resetWith c).cfg = c := rfl
@[simp] theorem resetWith_mem (c : Config) : (State.resetWith c).mem = [] := rfl
@[simp] theorem resetWith_v (c : Config) : (State.resetWith c).v = Vector.replicate 16 0 := rfl
@[simp] theorem resetWith_i (c : Config) : (State.resetWith c).i = 0 := rfl
@[simp] theorem resetWith_pc (c : Config) : (State.resetWith c).pc = BitVec.ofNat 16 c.progOrigin := rfl
@[simp] theorem resetWith_stack (c : Config) : (State.resetWith c).stack = Vector.replicate 16 0 := rfl
@[simp] theorem resetWith_sp (c : Config) : (State.resetWith c).sp = 0 := rfl
@[simp] theorem resetWith_dt (c : Config) : (State.resetWith c).dt = 0 := rfl
@[simp] theorem resetWith_st (c : Config) : (State.resetWith c).st = 0 := rfl
@[simp] theorem resetWith_keys (c : Config) : (State.resetWith c).keys = 0 := rfl
@[simp] theorem resetWith_run (c : Config) : (State.resetWith c).run = .running := rfl
@[simp] theorem resetWith_fault (c : Config) : (State.resetWith c).fault = none := rfl
@[simp] theorem resetWith_randQueue (c : Config) : (State.resetWith c).randQueue = [] := rfl
@[simp] theorem resetWith_randDrawn (c : Config) : (State.resetWith c).randDrawn = 0 := rfl

/-! ## Host transactions -/

@[simp] theorem hostSetKeys_cfg (w : Word) : (hostSetKeys w s).cfg = s.cfg := rfl
@[simp] theorem hostSetKeys_mem (w : Word) : (hostSetKeys w s).mem = s.mem := rfl
@[simp] theorem hostSetKeys_v (w : Word) : (hostSetKeys w s).v = s.v := rfl
@[simp] theorem hostSetKeys_i (w : Word) : (hostSetKeys w s).i = s.i := rfl
@[simp] theorem hostSetKeys_pc (w : Word) : (hostSetKeys w s).pc = s.pc := rfl
@[simp] theorem hostSetKeys_stack (w : Word) : (hostSetKeys w s).stack = s.stack := rfl
@[simp] theorem hostSetKeys_sp (w : Word) : (hostSetKeys w s).sp = s.sp := rfl
@[simp] theorem hostSetKeys_dt (w : Word) : (hostSetKeys w s).dt = s.dt := rfl
@[simp] theorem hostSetKeys_st (w : Word) : (hostSetKeys w s).st = s.st := rfl
@[simp] theorem hostSetKeys_keys (w : Word) : (hostSetKeys w s).keys = w := rfl
@[simp] theorem hostSetKeys_run (w : Word) : (hostSetKeys w s).run = s.run := rfl
@[simp] theorem hostSetKeys_fault (w : Word) : (hostSetKeys w s).fault = s.fault := rfl
@[simp] theorem hostSetKeys_randQueue (w : Word) : (hostSetKeys w s).randQueue = s.randQueue := rfl
@[simp] theorem hostSetKeys_randDrawn (w : Word) : (hostSetKeys w s).randDrawn = s.randDrawn := rfl

@[simp] theorem hostTick_cfg : (hostTick s).cfg = s.cfg := rfl
@[simp] theorem hostTick_mem : (hostTick s).mem = s.mem := rfl
@[simp] theorem hostTick_v : (hostTick s).v = s.v := rfl
@[simp] theorem hostTick_i : (hostTick s).i = s.i := rfl
@[simp] theorem hostTick_pc : (hostTick s).pc = s.pc := rfl
@[simp] theorem hostTick_stack : (hostTick s).stack = s.stack := rfl
@[simp] theorem hostTick_sp : (hostTick s).sp = s.sp := rfl
@[simp] theorem hostTick_dt : (hostTick s).dt = tick s.dt := rfl
@[simp] theorem hostTick_st : (hostTick s).st = tick s.st := rfl
@[simp] theorem hostTick_keys : (hostTick s).keys = s.keys := rfl
@[simp] theorem hostTick_run : (hostTick s).run = s.run := rfl
@[simp] theorem hostTick_fault : (hostTick s).fault = s.fault := rfl
@[simp] theorem hostTick_randQueue : (hostTick s).randQueue = s.randQueue := rfl
@[simp] theorem hostTick_randDrawn : (hostTick s).randDrawn = s.randDrawn := rfl

@[simp] theorem hostRand_cfg (b : Byte) : (hostRand b s).cfg = s.cfg := rfl
@[simp] theorem hostRand_mem (b : Byte) : (hostRand b s).mem = s.mem := rfl
@[simp] theorem hostRand_v (b : Byte) : (hostRand b s).v = s.v := rfl
@[simp] theorem hostRand_i (b : Byte) : (hostRand b s).i = s.i := rfl
@[simp] theorem hostRand_pc (b : Byte) : (hostRand b s).pc = s.pc := rfl
@[simp] theorem hostRand_stack (b : Byte) : (hostRand b s).stack = s.stack := rfl
@[simp] theorem hostRand_sp (b : Byte) : (hostRand b s).sp = s.sp := rfl
@[simp] theorem hostRand_dt (b : Byte) : (hostRand b s).dt = s.dt := rfl
@[simp] theorem hostRand_st (b : Byte) : (hostRand b s).st = s.st := rfl
@[simp] theorem hostRand_keys (b : Byte) : (hostRand b s).keys = s.keys := rfl
@[simp] theorem hostRand_run (b : Byte) : (hostRand b s).run = s.run := rfl
@[simp] theorem hostRand_fault (b : Byte) : (hostRand b s).fault = s.fault := rfl
@[simp] theorem hostRand_randQueue (b : Byte) : (hostRand b s).randQueue = s.randQueue ++ [b] := rfl
@[simp] theorem hostRand_randDrawn (b : Byte) : (hostRand b s).randDrawn = s.randDrawn := rfl

@[simp] theorem hostReset_cfg : (hostReset s).cfg = s.cfg := rfl
@[simp] theorem hostReset_mem : (hostReset s).mem = [] := rfl
@[simp] theorem hostReset_v : (hostReset s).v = Vector.replicate 16 0 := rfl
@[simp] theorem hostReset_i : (hostReset s).i = 0 := rfl
@[simp] theorem hostReset_pc : (hostReset s).pc = BitVec.ofNat 16 s.cfg.progOrigin := rfl
@[simp] theorem hostReset_stack : (hostReset s).stack = Vector.replicate 16 0 := rfl
@[simp] theorem hostReset_sp : (hostReset s).sp = 0 := rfl
@[simp] theorem hostReset_dt : (hostReset s).dt = 0 := rfl
@[simp] theorem hostReset_st : (hostReset s).st = 0 := rfl
@[simp] theorem hostReset_keys : (hostReset s).keys = 0 := rfl
@[simp] theorem hostReset_run : (hostReset s).run = .running := rfl
@[simp] theorem hostReset_fault : (hostReset s).fault = none := rfl
@[simp] theorem hostReset_randQueue : (hostReset s).randQueue = s.randQueue := rfl
@[simp] theorem hostReset_randDrawn : (hostReset s).randDrawn = s.randDrawn := rfl

end Sys2Proof.Machine
end

