-- ==== Sys2Proof/Laws/Ops.lean ====
section
/-! SUPPORT. One lemma per shared operation over the stack, the registers and the flags, saying everything it can
do. -/

namespace Sys2Proof.Machine

/-! ## Call stack -/

/-- A push on a stack that is not full. -/
theorem pushReturn_of_lt {s : State} (a : Word) (h : s.sp.val < 16) :
    pushReturn a s = some { s with stack := s.stack.set s.sp.val a h, sp := ⟨s.sp.val + 1, by omega⟩ } := by
  rw [pushReturn, dif_pos h]

/-- A push on a full stack. -/
theorem pushReturn_of_full {s : State} (a : Word) (h : s.sp.val = 16) : pushReturn a s = none := by
  rw [pushReturn, dif_neg (by omega)]

/-- All that a push can do. -/
theorem pushReturn_cases (a : Word) (s : State) :
    (s.sp.val = 16 ∧ pushReturn a s = none) ∨
      ∃ h : s.sp.val < 16,
        pushReturn a s = some { s with stack := s.stack.set s.sp.val a h, sp := ⟨s.sp.val + 1, by omega⟩ } := by
  by_cases h : s.sp.val < 16
  · exact .inr ⟨h, pushReturn_of_lt a h⟩
  · have := s.sp.isLt
    exact .inl ⟨by omega, pushReturn_of_full a (by omega)⟩

/-- A pop of a stack that is not empty. -/
theorem popReturn_of_pos {s : State} (h : 0 < s.sp.val) :
    popReturn s =
      some (s.stack[s.sp.val - 1]'(by omega), { s with sp := ⟨s.sp.val - 1, by omega⟩ }) := by
  rw [popReturn, dif_pos h]

/-- A pop of an empty stack. -/
theorem popReturn_of_empty {s : State} (h : s.sp.val = 0) : popReturn s = none := by
  rw [popReturn, dif_neg (by omega)]

/-- All that a pop can do. -/
theorem popReturn_cases (s : State) :
    (s.sp.val = 0 ∧ popReturn s = none) ∨
      ∃ h : 0 < s.sp.val,
        popReturn s =
          some (s.stack[s.sp.val - 1]'(by omega), { s with sp := ⟨s.sp.val - 1, by omega⟩ }) := by
  by_cases h : 0 < s.sp.val
  · exact .inr ⟨h, popReturn_of_pos h⟩
  · exact .inl ⟨by omega, popReturn_of_empty (by omega)⟩

/-! ## Registers -/

@[simp] theorem length_regsUpTo (s : State) (x : Nibble) : (regsUpTo s x).length = x.toNat + 1 := by
  have := x.isLt
  simp [regsUpTo]
  omega

/-- The k-th byte that FX55 stores is V[k]. -/
theorem getD_regsUpTo (s : State) (x k : Nibble) (h : k.toNat ≤ x.toNat) :
    (regsUpTo s x).getD k.toNat 0 = getReg s k := by
  have hk : k.toNat < 16 := k.isLt
  have : k.toNat < x.toNat + 1 := by omega
  simp [regsUpTo, getReg, List.getD_eq_getElem?_getD, this, Vector.getElem?_eq_getElem hk]

/-- V[k] after FX65 has filled the registers below `n`. -/
theorem getElem_fillRegs (m : Memory) (a : Nat) (v : Vector Byte 16) (n k : Nat) (hk : k < 16) :
    (fillRegs m a v n)[k] = if k < n then memRead m (a + k) else v[k] := by
  induction n with
  | zero => simp [fillRegs]
  | succ n ih =>
    rw [fillRegs, Vector.getElem_setIfInBounds, ih]
    by_cases h : n = k
    · subst h; simp
    · have : k < n ↔ k < n + 1 := by omega
      simp [h, this]

/-! ## Flags -/

theorem flagByte_eq_one (b : Bool) : flagByte b = 1 ↔ b = true := by cases b <;> decide

theorem flagByte_eq_zero (b : Bool) : flagByte b = 0 ↔ b = false := by cases b <;> decide

/-! ## Faults -/

/-- A meaning that raises a fault with pc0 = PC changes nothing but RUN and FAULT (60_exceptions.md R178). -/
theorem raiseFault_eq (f : Fault) (s : State) :
    raiseFault f s = { s with run := .faulted, fault := some f } := rfl

end Sys2Proof.Machine
end

