-- ==== Sys2Proof/Laws/Framebuffer.lean ====
section
/-! SUPPORT. The framebuffer translator and the blit: where they read and write, and what they leave alone. -/

namespace Sys2Proof.Machine

/-- A valid framebuffer is a whole number of rows: FB_WIDTH × FB_HEIGHT pixels fill the region (00_scope.md R7). -/
theorem width_mul_height {c : Config} (hc : c.Valid) :
    c.fbHeight * c.fbWidth = (c.memSize - c.fbOrigin) * 8 := by
  rw [Config.fbHeight]
  exact Nat.div_mul_cancel (Nat.dvd_of_mod_eq_zero hc.2.2.2.2.2)

theorem pixelNumber_lt {c : Config} {x y : Nat} (hx : x < c.fbWidth) (hy : y < c.fbHeight) :
    pixelNumber c x y < c.fbHeight * c.fbWidth := by
  have h : (y + 1) * c.fbWidth ≤ c.fbHeight * c.fbWidth := Nat.mul_le_mul_right _ hy
  rw [Nat.succ_mul] at h
  rw [pixelNumber]
  omega

theorem fbAddr_ge (c : Config) (x y : Nat) : c.fbOrigin ≤ fbAddr c x y := Nat.le_add_right _ _

/-- "always in [FB_ORIGIN, MEM_SIZE)" (20_memory.md R58). -/
theorem fbAddr_lt {c : Config} (hc : c.Valid) {x y : Nat} (hx : x < c.fbWidth) (hy : y < c.fbHeight) :
    fbAddr c x y < c.memSize := by
  have h := pixelNumber_lt hx hy
  rw [width_mul_height hc] at h
  have := hc.1.2
  rw [fbAddr]
  omega

theorem fbBit_lt (c : Config) (x y : Nat) : fbBit c x y < 8 := by
  rw [fbBit]
  omega

theorem getLsbD_withBit (b : Byte) (k : Nat) (p : Bool) (j : Nat) (hj : j < 8) :
    (withBit b k p).getLsbD j = if j = k then p else b.getLsbD j := by
  cases p <;> simp [withBit, hj] <;> by_cases h : j = k <;> simp [h]

/-- Two pixels share address and bit exactly when they are the same pixel number. -/
theorem same_place_iff (c : Config) (x y x' y' : Nat) :
    (fbAddr c x y = fbAddr c x' y' ∧ fbBit c x y = fbBit c x' y') ↔ pixelNumber c x y = pixelNumber c x' y' := by
  rw [fbAddr, fbAddr, fbBit, fbBit]
  omega

/-- The pixel number determines the pixel. -/
theorem pixelNumber_inj {c : Config} {x y x' y' : Nat} (hx : x < c.fbWidth) (hx' : x' < c.fbWidth)
    (h : pixelNumber c x y = pixelNumber c x' y') : x = x' ∧ y = y' := by
  rw [pixelNumber, pixelNumber] at h
  have hy : y = y' := by
    have := congrArg (· / c.fbWidth) h
    simpa [Nat.add_comm, Nat.add_mul_div_right _ _ (Nat.zero_lt_of_lt hx), Nat.div_eq_of_lt hx,
      Nat.div_eq_of_lt hx'] using this
  subst hy
  exact ⟨by omega, rfl⟩

/-- A pixel after one pixel has been set. -/
theorem pixel_setPixel (c : Config) (m : Memory) (x y x' y' : Nat) (p : Bool) :
    pixel c (setPixel c m x y p) x' y' =
      if pixelNumber c x' y' = pixelNumber c x y then p else pixel c m x' y' := by
  rw [pixel, setPixel, memRead_memWrite]
  by_cases ha : fbAddr c x' y' = fbAddr c x y
  · rw [if_pos ha, getLsbD_withBit _ _ _ _ (fbBit_lt c x' y'), ← ha, pixel]
    by_cases hb : fbBit c x' y' = fbBit c x y
    · rw [if_pos hb, if_pos ((same_place_iff c x' y' x y).mp ⟨ha, hb⟩)]
    · rw [if_neg hb, if_neg fun h => hb ((same_place_iff c x' y' x y).mpr h).2]
  · rw [if_neg ha, if_neg fun h => ha ((same_place_iff c x' y' x y).mpr h).1, pixel]

/-! ## The blit -/

theorem rowPixels_coords {c : Config} {xs y : Nat} {row : Byte} (hw : 0 < c.fbWidth) (hh : 0 < c.fbHeight)
    {q : Nat × Nat} (hq : q ∈ rowPixels c xs y row) : q.1 < c.fbWidth ∧ q.2 < c.fbHeight := by
  simp only [rowPixels, List.mem_filterMap, List.mem_range] at hq
  obtain ⟨k, -, h⟩ := hq
  split at h
  · obtain rfl := Option.some.inj h
    exact ⟨Nat.mod_lt _ hw, Nat.mod_lt _ hh⟩
  · cases h

theorem spritePixels_coords {c : Config} {xs y : Nat} {rows : List Byte} (hw : 0 < c.fbWidth)
    (hh : 0 < c.fbHeight) {q : Nat × Nat} (hq : q ∈ spritePixels c xs y rows) :
    q.1 < c.fbWidth ∧ q.2 < c.fbHeight := by
  induction rows generalizing y with
  | nil => simp [spritePixels] at hq
  | cons row rows ih =>
    rcases List.mem_append.mp hq with h | h
    · exact rowPixels_coords hw hh h
    · exact ih h

theorem fbHeight_pos {c : Config} (hc : c.Valid) : 0 < c.fbHeight := by
  have h := width_mul_height hc
  have := hc.1.2
  rcases Nat.eq_zero_or_pos c.fbHeight with h0 | h0
  · rw [h0, Nat.zero_mul] at h
    omega
  · exact h0

/-- Every pixel a draw inverts lies in the framebuffer ("the translator never sees a coordinate out of range",
20_memory.md R58). -/
theorem drawnPixels_coords {s : State} (hc : s.cfg.Valid) {x y n : Nibble} {q : Nat × Nat}
    (hq : q ∈ drawnPixels s x y n) : q.1 < s.cfg.fbWidth ∧ q.2 < s.cfg.fbHeight :=
  spritePixels_coords hc.2.2.2.1 (fbHeight_pos hc) hq

/-- The blit keeps the canonical form of memory. -/
theorem blit_wf {c : Config} (ps : List (Nat × Nat)) {m : Memory} (hm : m.wf) (hit : Bool) :
    (blit c ps m hit).1.wf := by
  induction ps generalizing m hit with
  | nil => exact hm
  | cons q ps ih => exact ih (memWrite_wf hm _ _) _

/-- The blit lists no address outside memory. -/
theorem blit_lt {c : Config} (hc : c.Valid) (ps : List (Nat × Nat))
    (hps : ∀ q ∈ ps, q.1 < c.fbWidth ∧ q.2 < c.fbHeight) {m : Memory} (hm : ∀ e ∈ m, e.1 < c.memSize)
    (hit : Bool) : ∀ e ∈ (blit c ps m hit).1, e.1 < c.memSize := by
  induction ps generalizing m hit with
  | nil => exact hm
  | cons q ps ih =>
    have hq := hps q (by simp)
    exact ih (fun r hr => hps r (List.mem_cons_of_mem _ hr)) (memWrite_lt hm (fbAddr_lt hc hq.1 hq.2) _) _

/-- The blit writes no byte below the framebuffer region. -/
theorem memRead_blit_below {c : Config} (ps : List (Nat × Nat)) (m : Memory) (hit : Bool) {a : Nat}
    (ha : a < c.fbOrigin) : memRead (blit c ps m hit).1 a = memRead m a := by
  induction ps generalizing m hit with
  | nil => rfl
  | cons q ps ih =>
    have := fbAddr_ge c q.1 q.2
    rw [blit, ih, setPixel, memRead_memWrite, if_neg (by omega)]

/-- The blit writes no byte above the framebuffer region. -/
theorem memRead_blit_above {c : Config} (hc : c.Valid) (ps : List (Nat × Nat))
    (hps : ∀ q ∈ ps, q.1 < c.fbWidth ∧ q.2 < c.fbHeight) (m : Memory) (hit : Bool) {a : Nat}
    (ha : c.memSize ≤ a) : memRead (blit c ps m hit).1 a = memRead m a := by
  induction ps generalizing m hit with
  | nil => rfl
  | cons q ps ih =>
    have hq := hps q (by simp)
    have := fbAddr_lt hc hq.1 hq.2
    rw [blit, ih fun r hr => hps r (List.mem_cons_of_mem _ hr), setPixel, memRead_memWrite, if_neg (by omega)]

/-- How often the blit inverts a pixel. -/
def visits (c : Config) (ps : List (Nat × Nat)) (x y : Nat) : Nat :=
  ps.countP fun q => decide (pixelNumber c q.1 q.2 = pixelNumber c x y)

/-- A pixel after the blit: inverted once per visit. -/
theorem pixel_blit (c : Config) (ps : List (Nat × Nat)) (m : Memory) (hit : Bool) (x y : Nat) :
    pixel c (blit c ps m hit).1 x y = (pixel c m x y ^^ decide (visits c ps x y % 2 = 1)) := by
  induction ps generalizing m hit with
  | nil => simp [blit, visits]
  | cons q ps ih =>
    rw [blit, ih, pixel_setPixel]
    by_cases h : pixelNumber c x y = pixelNumber c q.1 q.2
    · have hp : pixel c m q.1 q.2 = pixel c m x y := by
        have := (same_place_iff c x y q.1 q.2).mpr h
        rw [pixel, pixel, this.1, this.2]
      have hv : visits c (q :: ps) x y = visits c ps x y + 1 := by simp [visits, h.symm]
      rw [if_pos h, hp, hv]
      rcases Nat.mod_two_eq_zero_or_one (visits c ps x y) with e | e <;>
        simp [Nat.add_mod, e]
    · have hv : visits c (q :: ps) x y = visits c ps x y := by
        simp [visits, Ne.symm (a := pixelNumber c x y) h]
      rw [if_neg h, hv]

theorem visits_pos {c : Config} {ps : List (Nat × Nat)} {q : Nat × Nat} (hq : q ∈ ps) {x y : Nat}
    (h : pixelNumber c q.1 q.2 = pixelNumber c x y) : 0 < visits c ps x y :=
  List.countP_pos_iff.mpr ⟨q, hq, by simpa using h⟩

theorem exists_of_visits_pos {c : Config} {ps : List (Nat × Nat)} {x y : Nat} (h : 0 < visits c ps x y) :
    ∃ q ∈ ps, pixelNumber c q.1 q.2 = pixelNumber c x y := by
  obtain ⟨q, hq, e⟩ := List.countP_pos_iff.mp h
  exact ⟨q, hq, by simpa using e⟩

theorem visits_cons (c : Config) (q : Nat × Nat) (ps : List (Nat × Nat)) (x y : Nat) :
    visits c (q :: ps) x y =
      visits c ps x y + if pixelNumber c q.1 q.2 = pixelNumber c x y then 1 else 0 := by
  simp [visits, List.countP_cons]

theorem visits_congr {c : Config} (ps : List (Nat × Nat)) {x y x' y' : Nat}
    (h : pixelNumber c x y = pixelNumber c x' y') : visits c ps x y = visits c ps x' y' := by
  simp [visits, h]

theorem pixel_congr {c : Config} (m : Memory) {x y x' y' : Nat}
    (h : pixelNumber c x y = pixelNumber c x' y') : pixel c m x y = pixel c m x' y' := by
  have := (same_place_iff c x y x' y').mpr h
  rw [pixel, pixel, this.1, this.2]

/-- The collision flag of the blit: some pixel was 1 when it was visited, which is a pixel that was 1 before, or one
that is visited twice (43_display_keypad.md R154 (e)). -/
theorem blit_hit_iff (c : Config) (ps : List (Nat × Nat)) (m : Memory) (hit : Bool) :
    (blit c ps m hit).2 = true ↔
      hit = true ∨ ∃ q ∈ ps, pixel c m q.1 q.2 = true ∨ 2 ≤ visits c ps q.1 q.2 := by
  induction ps generalizing m hit with
  | nil => simp [blit]
  | cons q ps ih =>
    have hself : ∀ r ∈ ps, 0 < visits c ps r.1 r.2 := fun r hr => visits_pos hr rfl
    rw [blit, ih, Bool.or_eq_true]
    constructor
    · rintro ((h | h) | ⟨r, hr, h⟩)
      · exact .inl h
      · exact .inr ⟨q, by simp, .inl h⟩
      · refine .inr ⟨r, List.mem_cons_of_mem _ hr, ?_⟩
        have := hself r hr
        rw [pixel_setPixel] at h
        rw [visits_cons]
        by_cases e : pixelNumber c r.1 r.2 = pixelNumber c q.1 q.2
        · rw [if_pos e.symm]
          exact .inr (by omega)
        · rw [if_neg e] at h
          exact h.imp id fun h => by omega
    · have key : ∀ r ∈ ps, pixelNumber c r.1 r.2 = pixelNumber c q.1 q.2 → pixel c m q.1 q.2 = true ∨
          ∃ r ∈ ps, pixel c (setPixel c m q.1 q.2 (!(pixel c m q.1 q.2))) r.1 r.2 = true ∨
            2 ≤ visits c ps r.1 r.2 := by
        intro r hr e
        by_cases hp : pixel c m q.1 q.2 = true
        · exact .inl hp
        · refine .inr ⟨r, hr, .inl ?_⟩
          rw [pixel_setPixel, if_pos e]
          simpa using hp
      rintro (h | ⟨r, hr, h⟩)
      · exact .inl (.inl h)
      · rcases List.mem_cons.mp hr with rfl | hr
        · rcases h with h | h
          · exact .inl (.inr h)
          · rw [visits_cons, if_pos rfl] at h
            obtain ⟨r', hr', e⟩ := exists_of_visits_pos (show 0 < visits c ps r.1 r.2 by omega)
            rcases key r' hr' e with h | h
            · exact .inl (.inr h)
            · exact .inr h
        · by_cases e : pixelNumber c r.1 r.2 = pixelNumber c q.1 q.2
          · rcases key r hr e with h | h
            · exact .inl (.inr h)
            · exact .inr h
          · refine .inr ⟨r, hr, ?_⟩
            rw [pixel_setPixel, if_neg e]
            rw [visits_cons, if_neg (Ne.symm e)] at h
            exact h

/-- A byte of the framebuffer region is eight pixels: each of its bits is a pixel of the framebuffer. -/
theorem bit_is_pixel {c : Config} (hc : c.Valid) {a k : Nat} (ha : c.fbOrigin ≤ a) (ha' : a < c.memSize)
    (hk : k < 8) :
    ∃ x y, x < c.fbWidth ∧ y < c.fbHeight ∧ fbAddr c x y = a ∧ fbBit c x y = k := by
  have hw : 0 < c.fbWidth := hc.2.2.2.1
  have hn := width_mul_height hc
  refine ⟨(8 * (a - c.fbOrigin) + (7 - k)) % c.fbWidth, (8 * (a - c.fbOrigin) + (7 - k)) / c.fbWidth,
    Nat.mod_lt _ hw, ?_, ?_, ?_⟩
  · rw [Nat.div_lt_iff_lt_mul hw, hn]
    omega
  · rw [fbAddr, pixelNumber, Nat.div_add_mod']
    omega
  · rw [fbBit, pixelNumber, Nat.div_add_mod']
    omega

/-- Two memories that show the same pixels hold the same bytes in the framebuffer region. -/
theorem memRead_of_pixels {c : Config} (hc : c.Valid) {m m' : Memory}
    (h : ∀ x y, x < c.fbWidth → y < c.fbHeight → pixel c m' x y = pixel c m x y) {a : Nat}
    (ha : c.fbOrigin ≤ a) (ha' : a < c.memSize) : memRead m' a = memRead m a := by
  apply BitVec.eq_of_getLsbD_eq
  intro k hk
  obtain ⟨x, y, hx, hy, rfl, rfl⟩ := bit_is_pixel hc ha ha' hk
  exact h x y hx hy

end Sys2Proof.Machine
end

