-- ==== Sys2Proof/Laws/Step.lean ====
section
/-! SUPPORT. What executing one instruction and one step can do, said once. -/

namespace Sys2Proof.Machine

/-! ## The instructions that can fault -/

/-- All that RET can do (40_control_flow.md R101). -/
theorem execRet_cases (s : State) :
    (s.sp.val = 0 ∧ execRet s = .next (raiseFault (.stackUnderflow s.pc) s)) ∨
      ∃ h : 0 < s.sp.val,
        execRet s =
          .next { s with pc := s.stack[s.sp.val - 1]'(by omega), sp := ⟨s.sp.val - 1, by omega⟩ } := by
  rcases popReturn_cases (advance s) with ⟨h, e⟩ | ⟨h, e⟩
  · exact .inl ⟨h, by rw [execRet, e]⟩
  · exact .inr ⟨h, by rw [execRet, e]; rfl⟩

/-- All that CALL can do (40_control_flow.md R103). -/
theorem execCall_cases (nnn : Addr12) (s : State) :
    (s.sp.val = 16 ∧ execCall nnn s = .next (raiseFault (.stackOverflow s.pc) s)) ∨
      ∃ h : s.sp.val < 16,
        execCall nnn s =
          .next { s with
            pc := zextAddr nnn, stack := s.stack.set s.sp.val (s.pc + 2) h, sp := ⟨s.sp.val + 1, by omega⟩ } := by
  rcases pushReturn_cases (advance s).pc (advance s) with ⟨h, e⟩ | ⟨h, e⟩
  · exact .inl ⟨h, by rw [execCall, e]⟩
  · exact .inr ⟨h, by rw [execCall, e]; rfl⟩

/-- All that FX55 can do (44_index_memory_transfer.md R160, R161). -/
theorem execStoreRegs_cases (x : Nibble) (s : State) :
    (s.cfg.memSize ≤ s.i.toNat + x.toNat ∧
        execStoreRegs x s = .next (raiseFault (.outOfBoundsTransfer s.pc .write s.i (x.toNat + 1)) s)) ∨
      (s.i.toNat + x.toNat < s.cfg.memSize ∧
        execStoreRegs x s = .next { s with pc := s.pc + 2, mem := storeBytes s.mem s.i.toNat (regsUpTo s x) }) := by
  by_cases h : s.cfg.memSize ≤ s.i.toNat + x.toNat
  · exact .inl ⟨h, by rw [execStoreRegs, if_pos (by simpa [transferOutside] using h)]⟩
  · exact .inr ⟨by omega, by rw [execStoreRegs, if_neg (by simpa [transferOutside] using h)]; rfl⟩

/-- All that FX65 can do (44_index_memory_transfer.md R160, R162). -/
theorem execLoadRegs_cases (x : Nibble) (s : State) :
    (s.cfg.memSize ≤ s.i.toNat + x.toNat ∧
        execLoadRegs x s = .next (raiseFault (.outOfBoundsTransfer s.pc .read s.i (x.toNat + 1)) s)) ∨
      (s.i.toNat + x.toNat < s.cfg.memSize ∧
        execLoadRegs x s =
          .next { s with pc := s.pc + 2, v := fillRegs s.mem s.i.toNat s.v (x.toNat + 1) }) := by
  by_cases h : s.cfg.memSize ≤ s.i.toNat + x.toNat
  · exact .inl ⟨h, by rw [execLoadRegs, if_pos (by simpa [transferOutside] using h)]⟩
  · exact .inr ⟨by omega, by rw [execLoadRegs, if_neg (by simpa [transferOutside] using h)]; rfl⟩

theorem spriteOutside_iff (s : State) (n : Nibble) :
    spriteOutside s n = true ↔ 0 < n.toNat ∧ s.cfg.memSize ≤ s.i.toNat + n.toNat - 1 := by
  simp [spriteOutside]

/-- All that DXYN can do (43_display_keypad.md R151). -/
theorem execDrw_cases (x y n : Nibble) (s : State) :
    ((0 < n.toNat ∧ s.cfg.memSize ≤ s.i.toNat + n.toNat - 1) ∧
        execDrw x y n s = .next (raiseFault (.outOfBoundsTransfer s.pc .read s.i n.toNat) s)) ∨
      (¬ (0 < n.toNat ∧ s.cfg.memSize ≤ s.i.toNat + n.toNat - 1) ∧
        execDrw x y n s =
          .next { s with
            pc := s.pc + 2
            mem := (blit s.cfg (drawnPixels s x y n) s.mem false).1
            v := s.v.set 15 (flagByte (blit s.cfg (drawnPixels s x y n) s.mem false).2) }) := by
  by_cases h : spriteOutside s n = true
  · exact .inl ⟨(spriteOutside_iff s n).mp h, by rw [execDrw, if_pos h]⟩
  · exact .inr ⟨fun h' => h ((spriteOutside_iff s n).mpr h'), by rw [execDrw, if_neg h]; rfl⟩

/-! ## Any instruction -/

/-- What executing an instruction can do to the state outside registers, memory, PC and stack: it raises a fault, which
changes RUN and FAULT alone, or it leaves RUN, FAULT, the timers, the keys and the configuration as they are. -/
theorem exec_cases (i : Instr) (s : State) :
    (∃ f, exec i s = .next (raiseFault f s) ∧ faultPc f = s.pc) ∨
      ∃ t, exec i s = .next t ∧ SameRun s t ∧ SameHost s t := by
  cases i with
  | ret =>
    rcases execRet_cases s with ⟨_, e⟩ | ⟨_, e⟩
    · exact .inl ⟨_, e, rfl⟩
    · exact .inr ⟨_, e, ⟨rfl, rfl⟩, rfl, rfl, rfl, rfl⟩
  | call nnn =>
    rcases execCall_cases nnn s with ⟨_, e⟩ | ⟨_, e⟩
    · exact .inl ⟨_, e, rfl⟩
    · exact .inr ⟨_, e, ⟨rfl, rfl⟩, rfl, rfl, rfl, rfl⟩
  | storeRegs x =>
    rcases execStoreRegs_cases x s with ⟨_, e⟩ | ⟨_, e⟩
    · exact .inl ⟨_, e, rfl⟩
    · exact .inr ⟨_, e, ⟨rfl, rfl⟩, rfl, rfl, rfl, rfl⟩
  | loadRegs x =>
    rcases execLoadRegs_cases x s with ⟨_, e⟩ | ⟨_, e⟩
    · exact .inl ⟨_, e, rfl⟩
    · exact .inr ⟨_, e, ⟨rfl, rfl⟩, rfl, rfl, rfl, rfl⟩
  | drw x y n =>
    rcases execDrw_cases x y n s with ⟨_, e⟩ | ⟨_, e⟩
    · exact .inl ⟨_, e, rfl⟩
    · exact .inr ⟨_, e, ⟨rfl, rfl⟩, rfl, rfl, rfl, rfl⟩
  | cls | sys _ | jp _ | seImm _ _ | sneImm _ _ | seReg _ _ _ | ldImm _ _ | addImm _ _ | ldReg _ _ | orReg _ _
  | andReg _ _ | xorReg _ _ | addReg _ _ | subReg _ _ | shr _ _ | subnReg _ _ | shl _ _ | sneReg _ _ _ | ldI _
  | jpV0 _ | rnd _ _ | skp _ | sknp _ | addI _ => exact .inr ⟨_, rfl, ⟨rfl, rfl⟩, rfl, rfl, rfl, rfl⟩

/-! ## Fetch and step -/

theorem fetchByte_of_lt {s : State} {a : Nat} (h : a < s.cfg.memSize) :
    fetchByte s a = .ok (memRead s.mem a) := by
  rw [fetchByte, if_neg (by omega)]

theorem fetchByte_of_ge {s : State} {a : Nat} (h : s.cfg.memSize ≤ a) :
    fetchByte s a = .error (.outOfBoundsFetch s.pc a) := by
  rw [fetchByte, if_pos h]

/-- The word fetched when both bytes are in memory (20_memory.md R52). -/
theorem fetchWord_of_lt {s : State} (h : s.pc.toNat + 1 < s.cfg.memSize) :
    fetchWord s = .ok (wordOfBytes (memRead s.mem s.pc.toNat) (memRead s.mem (s.pc.toNat + 1))) := by
  rw [fetchWord, fetchByte_of_lt (by omega), fetchByte_of_lt h]

/-- All that fetch and decode can answer. -/
theorem fetchInstr_cases (s : State) :
    (∃ f, fetchInstr s = .error f ∧ faultPc f = s.pc) ∨
      ∃ i, fetchInstr s = .ok i ∧ s.pc.toNat + 1 < s.cfg.memSize := by
  by_cases h0 : s.pc.toNat < s.cfg.memSize
  · by_cases h1 : s.pc.toNat + 1 < s.cfg.memSize
    · rw [fetchInstr, fetchWord_of_lt h1]
      simp only
      split
      · next i _ => exact .inr ⟨i, rfl, h1⟩
      · exact .inl ⟨_, rfl, rfl⟩
    · exact .inl ⟨.outOfBoundsFetch s.pc (s.pc.toNat + 1), by
        rw [fetchInstr, fetchWord, fetchByte_of_lt h0, fetchByte_of_ge (by omega)], rfl⟩
  · exact .inl ⟨.outOfBoundsFetch s.pc s.pc.toNat, by rw [fetchInstr, fetchWord, fetchByte_of_ge (by omega)], rfl⟩

/-- All that a step can do: it does nothing outside RUNNING, raises a fetch or decode fault, or executes the decoded
instruction; a configuration that breaks 00_scope.md R7 is refused. -/
theorem step_cases (s : State) :
    (¬ s.cfg.Valid ∧ step s = .refused .invalidConfiguration) ∨
      (s.cfg.Valid ∧
        ((s.run ≠ .running ∧ step s = .next s) ∨
          (s.run = .running ∧ ∃ f, fetchInstr s = .error f ∧ faultPc f = s.pc ∧ step s = .next (raiseFault f s)) ∨
          (s.run = .running ∧
            ∃ i, fetchInstr s = .ok i ∧ s.pc.toNat + 1 < s.cfg.memSize ∧ step s = exec i s))) := by
  by_cases hv : s.cfg.Valid
  · refine .inr ⟨hv, ?_⟩
    by_cases hr : s.run = .running
    · rcases fetchInstr_cases s with ⟨f, e, hf⟩ | ⟨i, e, hp⟩
      · exact .inr (.inl ⟨hr, f, e, hf, by rw [step, stepWith, if_pos hv, if_pos hr, e]⟩)
      · exact .inr (.inr ⟨hr, i, e, hp, by rw [step, stepWith, if_pos hv, if_pos hr, e]⟩)
    · exact .inl ⟨hr, by rw [step, stepWith, if_pos hv, if_neg hr]⟩
  · exact .inl ⟨hv, by rw [step, stepWith, if_neg hv]⟩

end Sys2Proof.Machine
end

