-- ==== Sys2Proof/Laws/Frames.lean ====
section
/-! SUPPORT. What the shared operations give as numbers, the three common frames, and how a step of a RUNNING core
follows from what its fetch gives. -/

namespace Sys2Proof.Machine

/-! ## Operands and flags as numbers -/

theorem toNat_zextAddr (nnn : Addr12) : (zextAddr nnn).toNat = nnn.toNat := by
  have := nnn.isLt
  simp [zextAddr, BitVec.toNat_setWidth]
  omega

theorem toNat_zextByte (b : Byte) : (zextByte b).toNat = b.toNat := by
  have := b.isLt
  simp [zextByte, BitVec.toNat_setWidth]
  omega

theorem keyDown_eq (s : State) (k : Byte) :
    keyDown s k = decide (k.toNat < 16 ∧ s.keys.getLsbD k.toNat = true) := by
  simp only [keyDown, Bool.decide_and]
  simp [Nat.lt_succ_iff]

theorem toNat_flagByte_lowBit (b : Byte) : (flagByte (lowBit b)).toNat = b.toNat % 2 := by
  revert b; decide

theorem toNat_flagByte_highBit (b : Byte) : (flagByte (highBit b)).toNat = b.toNat / 128 := by
  revert b; decide

/-- PC after a skip: pc0 + 4 or pc0 + 2 (40_control_flow.md R109). -/
theorem skipIf_advance_pc (c : Prop) [Decidable c] (s : State) :
    (skipIf (decide c) (advance s)).pc = if c then s.pc + 4 else s.pc + 2 := by
  simp only [skipIf_pc, advance_pc, decide_eq_true_eq]
  split
  · rw [BitVec.add_assoc]; rfl
  · rfl

/-! ## Frames -/

theorem writesOnlyReg_setReg (x : Nibble) (b : Byte) (s : State) : WritesOnlyReg x s (setReg x b (advance s)) :=
  ⟨rfl, fun k hk => by rw [getReg_setReg, if_neg hk]; rfl, rfl, fun _ => rfl, ⟨rfl, rfl⟩, ⟨rfl, rfl⟩,
    ⟨rfl, rfl, rfl, rfl⟩, rfl, rfl⟩

theorem writesOnlyRegAndFlag_writeResultAndFlag (x : Nibble) (b : Byte) (f : Bool) (s : State) :
    WritesOnlyRegAndFlag x s (writeResultAndFlag x b f (advance s)) :=
  ⟨rfl, fun k hk => by
      rw [getReg_writeResultAndFlag, if_neg (fun h => hk (.inr h)), if_neg (fun h => hk (.inl h))]; rfl,
    rfl, fun _ => rfl, ⟨rfl, rfl⟩, ⟨rfl, rfl⟩, ⟨rfl, rfl, rfl, rfl⟩, rfl, rfl⟩

theorem writesOnlyPc_setPc (a : Word) (s : State) : WritesOnlyPc s { s with pc := a } :=
  ⟨fun _ => rfl, rfl, fun _ => rfl, ⟨rfl, rfl⟩, ⟨rfl, rfl⟩, ⟨rfl, rfl, rfl, rfl⟩, rfl, rfl⟩

/-! ## A step of a RUNNING core -/

theorem step_of_fetchInstr_ok {s : State} {i : Instr} (hv : s.cfg.Valid) (hr : s.run = .running)
    (h : fetchInstr s = .ok i) : step s = exec i s := by
  rw [step, stepWith, if_pos hv, if_pos hr, h]

theorem step_of_fetchInstr_error {s : State} {f : Fault} (hv : s.cfg.Valid) (hr : s.run = .running)
    (h : fetchInstr s = .error f) : step s = .next (raiseFault f s) := by
  rw [step, stepWith, if_pos hv, if_pos hr, h]

end Sys2Proof.Machine
end

