-- ==== Sys2Proof/Laws/HostPort.lean ====
section
/-! SUPPORT. What a host transaction can do, said once. -/

namespace Sys2Proof.Machine

/-- A transaction on a core whose configuration obeys 00_scope.md R7. -/
theorem transact_of_valid {s : State} (hv : s.cfg.Valid) (t : Transaction) : transact t s = perform t s :=
  if_pos hv

/-- A transaction on any other core. -/
theorem transact_of_not_valid {s : State} (hv : ¬ s.cfg.Valid) (t : Transaction) :
    transact t s = (s, .refused .invalidConfiguration) := if_neg hv

/-- All that a transaction can do. -/
theorem transact_cases (t : Transaction) (s : State) :
    (s.cfg.Valid ∧ transact t s = perform t s)
      ∨ (¬ s.cfg.Valid ∧ transact t s = (s, .refused .invalidConfiguration)) := by
  by_cases hv : s.cfg.Valid
  · exact .inl ⟨hv, transact_of_valid hv t⟩
  · exact .inr ⟨hv, transact_of_not_valid hv t⟩

/-- A core is created of a valid configuration only, and in its reset state (70_reset_and_hazards.md R200). -/
theorem createCore_eq_next_iff (c : Config) (s : State) :
    createCore c = .next s ↔ c.Valid ∧ State.resetWith c = s := by
  by_cases hv : c.Valid
  · rw [createCore, if_pos hv]
    exact ⟨fun h => ⟨hv, Host.Outcome.next.inj h⟩, fun h => by rw [h.2]⟩
  · rw [createCore, if_neg hv]
    exact ⟨fun h => (by cases h), fun h => absurd h.1 hv⟩

/-- The run state and the fault record decide the status of a step (60_exceptions.md R172, R178). -/
theorem stepStatus_of_faulted {s t : State} {f : Fault} (hr : s.run = .running) (ht : t.run = .faulted)
    (hf : t.fault = some f) : stepStatus s t = .faulted f := by
  rw [stepStatus, if_pos hr, hf, ht]

theorem stepStatus_of_running {s t : State} (hr : s.run = .running) (ht : t.run = .running) :
    stepStatus s t = .ok := by
  rw [stepStatus, if_pos hr, ht]
  cases t.fault <;> rfl

end Sys2Proof.Machine
end

