-- ==== Sys2Proof/Laws/PerInstr.lean ====
section
/-! SUPPORT. For every instruction: its encoded word matches its own row of the opcode table (30_encoding.md R83,
R84). -/

namespace Sys2Proof

theorem and_F000_wordCNNN (c : Nibble) (nnn : Addr12) : wordCNNN c nnn &&& 0xF000 = wordCNNN c 0 := by
  have h : (0xF000 : Word) = (0xF#4 ++ 0#12 : BitVec (4 + 12)) := by decide
  rw [h, wordCNNN, BitVec.and_append, show (0xF#4) = BitVec.allOnes 4 by decide, BitVec.and_allOnes,
    BitVec.and_zero, wordCNNN]
  rfl

theorem and_F000_wordCXNN (c x : Nibble) (nn : Byte) : wordCXNN c x nn &&& 0xF000 = wordCXNN c 0 0 := by
  have h : (0xF000 : Word) = (0xF#4 ++ 0#4 ++ 0#8 : BitVec (4 + 4 + 8)) := by decide
  rw [h, wordCXNN, BitVec.and_append, BitVec.and_append, show (0xF#4) = BitVec.allOnes 4 by decide,
    BitVec.and_allOnes, BitVec.and_zero, BitVec.and_zero, wordCXNN]
  rfl

theorem and_F0FF_wordCXNN (c x : Nibble) (nn : Byte) : wordCXNN c x nn &&& 0xF0FF = wordCXNN c 0 nn := by
  have h : (0xF0FF : Word) = (0xF#4 ++ 0#4 ++ 0xFF#8 : BitVec (4 + 4 + 8)) := by decide
  rw [h, wordCXNN, BitVec.and_append, BitVec.and_append, show (0xF#4) = BitVec.allOnes 4 by decide,
    show (0xFF#8) = BitVec.allOnes 8 by decide, BitVec.and_allOnes, BitVec.and_allOnes, BitVec.and_zero, wordCXNN]
  rfl

theorem and_F000_wordCXYN (c x y n : Nibble) : wordCXYN c x y n &&& 0xF000 = wordCXYN c 0 0 0 := by
  have h : (0xF000 : Word) = (0xF#4 ++ 0#4 ++ 0#4 ++ 0#4 : BitVec (4 + 4 + 4 + 4)) := by decide
  rw [h, wordCXYN, BitVec.and_append, BitVec.and_append, BitVec.and_append,
    show (0xF#4) = BitVec.allOnes 4 by decide, BitVec.and_allOnes, BitVec.and_zero, BitVec.and_zero, BitVec.and_zero,
    wordCXYN]
  rfl

theorem and_F00F_wordCXYN (c x y n : Nibble) : wordCXYN c x y n &&& 0xF00F = wordCXYN c 0 0 n := by
  have h : (0xF00F : Word) = (0xF#4 ++ 0#4 ++ 0#4 ++ 0xF#4 : BitVec (4 + 4 + 4 + 4)) := by decide
  rw [h, wordCXYN, BitVec.and_append, BitVec.and_append, BitVec.and_append,
    show (0xF#4) = BitVec.allOnes 4 by decide, BitVec.and_allOnes, BitVec.and_allOnes, BitVec.and_zero,
    BitVec.and_zero, wordCXYN]
  rfl

/-! ## Matching a row, said of the fields of a word -/

theorem and_F000 (w : Word) : w &&& 0xF000 = wordCXNN (fieldC w) 0 0 := by
  conv_lhs => rw [← wordCXNN_fields w]
  exact and_F000_wordCXNN _ _ _

theorem and_F0FF (w : Word) : w &&& 0xF0FF = wordCXNN (fieldC w) 0 (fieldNN w) := by
  conv_lhs => rw [← wordCXNN_fields w]
  exact and_F0FF_wordCXNN _ _ _

theorem and_F00F (w : Word) : w &&& 0xF00F = wordCXYN (fieldC w) 0 0 (fieldN w) := by
  conv_lhs => rw [← wordCXYN_fields w]
  exact and_F00F_wordCXYN _ _ _ _

theorem and_FFFF (w : Word) : w &&& 0xFFFF = w := by
  rw [show (0xFFFF : Word) = BitVec.allOnes 16 by decide, BitVec.and_allOnes]

/-- A row with mask 0xF000 matches exactly the words of its class. -/
theorem matches_F000_iff (w : Word) (c : Nibble) : w &&& 0xF000 = wordCXNN c 0 0 ↔ fieldC w = c := by
  rw [and_F000]
  constructor
  · intro h
    rw [← fieldC_wordCXNN (fieldC w) 0 0, h, fieldC_wordCXNN]
  · rintro rfl
    rfl

/-- A row with mask 0xF0FF matches exactly the words of its class with its low byte. -/
theorem matches_F0FF_iff (w : Word) (c : Nibble) (b : Byte) :
    w &&& 0xF0FF = wordCXNN c 0 b ↔ fieldC w = c ∧ fieldNN w = b := by
  rw [and_F0FF]
  constructor
  · intro h
    exact ⟨by rw [← fieldC_wordCXNN (fieldC w) 0 (fieldNN w), h, fieldC_wordCXNN],
      by rw [← fieldNN_wordCXNN (fieldC w) 0 (fieldNN w), h, fieldNN_wordCXNN]⟩
  · rintro ⟨rfl, rfl⟩
    rfl

/-- A row with mask 0xF00F matches exactly the words of its class with its low nibble. -/
theorem matches_F00F_iff (w : Word) (c n : Nibble) :
    w &&& 0xF00F = wordCXYN c 0 0 n ↔ fieldC w = c ∧ fieldN w = n := by
  rw [and_F00F]
  constructor
  · intro h
    exact ⟨by rw [← fieldC_wordCXYN (fieldC w) 0 0 (fieldN w), h, fieldC_wordCXYN],
      by rw [← fieldN_wordCXYN (fieldC w) 0 0 (fieldN w), h, fieldN_wordCXYN]⟩
  · rintro ⟨rfl, rfl⟩
    rfl

end Sys2Proof

namespace Sys2Proof.Laws.MatchesRow

/-- The word of `i` matches the row of the opcode table that `i` stands for. -/
def Statement (i : Instr) : Prop :=
  ∃ r, opcodeRows[i.rowNumber]? = some r ∧ encode i &&& r.mask = r.pattern

theorem cls : Statement (.cls) := ⟨_, rfl, by decide⟩

theorem ret : Statement (.ret) := ⟨_, rfl, by decide⟩

theorem sys (nnn : Addr12) : Statement (.sys nnn) := ⟨_, rfl, (and_F000_wordCNNN _ _).trans (by decide)⟩

theorem jp (nnn : Addr12) : Statement (.jp nnn) := ⟨_, rfl, (and_F000_wordCNNN _ _).trans (by decide)⟩

theorem call (nnn : Addr12) : Statement (.call nnn) := ⟨_, rfl, (and_F000_wordCNNN _ _).trans (by decide)⟩

theorem seImm (x : Nibble) (nn : Byte) : Statement (.seImm x nn) := ⟨_, rfl, (and_F000_wordCXNN _ _ _).trans (by decide)⟩

theorem sneImm (x : Nibble) (nn : Byte) : Statement (.sneImm x nn) := ⟨_, rfl, (and_F000_wordCXNN _ _ _).trans (by decide)⟩

theorem seReg (x : Nibble) (y : Nibble) (n : Nibble) : Statement (.seReg x y n) := ⟨_, rfl, (and_F000_wordCXYN _ _ _ _).trans (by decide)⟩

theorem ldImm (x : Nibble) (nn : Byte) : Statement (.ldImm x nn) := ⟨_, rfl, (and_F000_wordCXNN _ _ _).trans (by decide)⟩

theorem addImm (x : Nibble) (nn : Byte) : Statement (.addImm x nn) := ⟨_, rfl, (and_F000_wordCXNN _ _ _).trans (by decide)⟩

theorem ldReg (x : Nibble) (y : Nibble) : Statement (.ldReg x y) := ⟨_, rfl, (and_F00F_wordCXYN _ _ _ _).trans (by decide)⟩

theorem orReg (x : Nibble) (y : Nibble) : Statement (.orReg x y) := ⟨_, rfl, (and_F00F_wordCXYN _ _ _ _).trans (by decide)⟩

theorem andReg (x : Nibble) (y : Nibble) : Statement (.andReg x y) := ⟨_, rfl, (and_F00F_wordCXYN _ _ _ _).trans (by decide)⟩

theorem xorReg (x : Nibble) (y : Nibble) : Statement (.xorReg x y) := ⟨_, rfl, (and_F00F_wordCXYN _ _ _ _).trans (by decide)⟩

theorem addReg (x : Nibble) (y : Nibble) : Statement (.addReg x y) := ⟨_, rfl, (and_F00F_wordCXYN _ _ _ _).trans (by decide)⟩

theorem subReg (x : Nibble) (y : Nibble) : Statement (.subReg x y) := ⟨_, rfl, (and_F00F_wordCXYN _ _ _ _).trans (by decide)⟩

theorem shr (x : Nibble) (y : Nibble) : Statement (.shr x y) := ⟨_, rfl, (and_F00F_wordCXYN _ _ _ _).trans (by decide)⟩

theorem subnReg (x : Nibble) (y : Nibble) : Statement (.subnReg x y) := ⟨_, rfl, (and_F00F_wordCXYN _ _ _ _).trans (by decide)⟩

theorem shl (x : Nibble) (y : Nibble) : Statement (.shl x y) := ⟨_, rfl, (and_F00F_wordCXYN _ _ _ _).trans (by decide)⟩

theorem sneReg (x : Nibble) (y : Nibble) (n : Nibble) : Statement (.sneReg x y n) := ⟨_, rfl, (and_F000_wordCXYN _ _ _ _).trans (by decide)⟩

theorem ldI (nnn : Addr12) : Statement (.ldI nnn) := ⟨_, rfl, (and_F000_wordCNNN _ _).trans (by decide)⟩

theorem jpV0 (nnn : Addr12) : Statement (.jpV0 nnn) := ⟨_, rfl, (and_F000_wordCNNN _ _).trans (by decide)⟩

theorem rnd (x : Nibble) (nn : Byte) : Statement (.rnd x nn) := ⟨_, rfl, (and_F000_wordCXNN _ _ _).trans (by decide)⟩

theorem drw (x : Nibble) (y : Nibble) (n : Nibble) : Statement (.drw x y n) := ⟨_, rfl, (and_F000_wordCXYN _ _ _ _).trans (by decide)⟩

theorem skp (x : Nibble) : Statement (.skp x) := ⟨_, rfl, (and_F0FF_wordCXNN _ _ _).trans (by decide)⟩

theorem sknp (x : Nibble) : Statement (.sknp x) := ⟨_, rfl, (and_F0FF_wordCXNN _ _ _).trans (by decide)⟩

theorem addI (x : Nibble) : Statement (.addI x) := ⟨_, rfl, (and_F0FF_wordCXNN _ _ _).trans (by decide)⟩

theorem storeRegs (x : Nibble) : Statement (.storeRegs x) := ⟨_, rfl, (and_F0FF_wordCXNN _ _ _).trans (by decide)⟩

theorem loadRegs (x : Nibble) : Statement (.loadRegs x) := ⟨_, rfl, (and_F0FF_wordCXNN _ _ _).trans (by decide)⟩

end Sys2Proof.Laws.MatchesRow
end

