-- ==== Sys2Proof/Laws/Sprite.lean ====
section
/-! SUPPORT. The pixels a DXYN inverts, counted cell by cell: the blit's list of pixels against the sprite's bits. -/

namespace Sys2Proof.Machine

/-- One row of the blit's list against the eight columns of the sprite row. -/
theorem countP_rowPixels (c : Config) (xs y : Nat) (row : Byte) (px py : Nat) :
    (rowPixels c xs y row).countP (fun q => decide (q.1 = px ∧ q.2 = py)) =
      (List.range 8).countP (fun k =>
        row.getLsbD (7 - k) && decide ((xs + k) % c.fbWidth = px) && decide (y % c.fbHeight = py)) := by
  rw [rowPixels, List.countP_filterMap]
  apply List.countP_congr
  intro k _
  by_cases h : row.getLsbD (7 - k) = true <;> simp [h]

/-- All rows of it. -/
theorem countP_spritePixels (c : Config) (xs : Nat) (m : Memory) (px py : Nat) (n : Nat) : ∀ (a y : Nat),
    (spritePixels c xs y (loadBytes m a n)).countP (fun q => decide (q.1 = px ∧ q.2 = py)) =
      (spriteCells n).countP (fun cell =>
        (memRead m (a + cell.1)).getLsbD (7 - cell.2) && decide ((xs + cell.2) % c.fbWidth = px)
          && decide ((y + cell.1) % c.fbHeight = py)) := by
  induction n with
  | zero => intro a y; rfl
  | succ n ih =>
    intro a y
    have hl : loadBytes m a (n + 1) = memRead m a :: loadBytes m (a + 1) n := by
      simp only [loadBytes, List.range_succ_eq_map, List.map_cons, List.map_map]
      congr 1
      apply List.map_congr_left
      intro k _
      simp [Nat.add_assoc, Nat.add_comm 1]
    rw [hl, spritePixels, List.countP_append, ih, countP_rowPixels, spriteCells, spriteCells,
      List.range_succ_eq_map (n := n), List.flatMap_cons, List.countP_append, List.countP_map, List.flatMap_map,
      List.countP_flatMap, List.countP_flatMap]
    congr 2
    apply List.map_congr_left
    intro r _
    simp only [Function.comp, List.countP_map]
    apply List.countP_congr
    intro k _
    simp [Nat.add_assoc, Nat.add_comm 1]

/-- A drawn sprite inverts the pixel (px, py) once for each 1 bit that lands on it. -/
theorem visits_drawnPixels (s : State) (hv : s.cfg.Valid) (x y n : Nibble) {px py : Nat} (hx : px < s.cfg.fbWidth) :
    visits s.cfg (drawnPixels s x y n) px py = spriteVisits s x y n px py := by
  have h : spriteVisits s x y n px py =
      (drawnPixels s x y n).countP (fun q => decide (q.1 = px ∧ q.2 = py)) := by
    rw [drawnPixels, countP_spritePixels]; rfl
  rw [h, visits]
  apply List.countP_congr
  intro q hq
  have hc := drawnPixels_coords hv hq
  simp only [decide_eq_true_eq]
  constructor
  · intro h; exact pixelNumber_inj hc.1 hx h
  · rintro ⟨rfl, rfl⟩; rfl

/-- The blit's flag of a drawn sprite, said of the pixels. -/
theorem blit_drawnPixels_hit_iff (s : State) (hv : s.cfg.Valid) (x y n : Nibble) :
    (blit s.cfg (drawnPixels s x y n) s.mem false).2 = true ↔ DrawCollides s x y n := by
  rw [blit_hit_iff]
  simp only [Bool.false_eq_true, false_or, DrawCollides]
  constructor
  · rintro ⟨q, hq, h⟩
    have hc := drawnPixels_coords hv hq
    refine ⟨q.1, q.2, hc.1, hc.2, ?_⟩
    rw [← visits_drawnPixels s hv x y n hc.1]
    exact h.imp (fun h => ⟨h, visits_pos hq rfl⟩) id
  · rintro ⟨px, py, hx, hy, h⟩
    rw [← visits_drawnPixels s hv x y n hx] at h
    have hp : 0 < visits s.cfg (drawnPixels s x y n) px py := by rcases h with ⟨_, h⟩ | h <;> omega
    obtain ⟨q, hq, e⟩ := exists_of_visits_pos hp
    refine ⟨q, hq, ?_⟩
    rw [pixel_congr _ e, visits_congr _ e]
    exact h.imp And.left id

/-- A drawn sprite changes no byte outside the framebuffer. -/
theorem memRead_blit_drawnPixels_outside (s : State) (hv : s.cfg.Valid) (x y n : Nibble) (hit : Bool) {a : Nat}
    (h : a < s.cfg.fbOrigin ∨ s.cfg.memSize ≤ a) :
    memRead (blit s.cfg (drawnPixels s x y n) s.mem hit).1 a = memRead s.mem a := by
  rcases h with h | h
  · exact memRead_blit_below _ _ _ h
  · exact memRead_blit_above hv _ (fun q hq => drawnPixels_coords hv hq) _ _ h

end Sys2Proof.Machine
end

