-- ==== Sys2Proof/Tests/Slice0.lean ====
section
/-! SUPPORT. Tests of the model. The expected results are the spec's own vectors (95_test_vectors.md; the name of each
test ends in the vector's id) or words written out from 30_encoding.md R84. The witnesses at the end show for every
statement with hypotheses a concrete state and operands that meet them. -/

namespace Sys2Proof.Tests

open Sys2Proof Sys2Proof.Machine

/-! ## Helpers -/

/-- The reset state. -/
def boot : State := State.reset

/-- `s` with the given registers. -/
def regs (l : List (Nibble × Byte)) (s : State) : State := l.foldl (fun s p => setReg p.1 p.2 s) s

/-- `s` with bytes stored at an address. -/
def bytesAt (a : Nat) (bs : List Byte) (s : State) : State := { s with mem := storeBytes s.mem a bs }

/-- `s` with an instruction word at PC. -/
def word (w : Nat) (s : State) : State := s.withFetchWord 16 w

/-- What `f` sees in the state after one step, or nothing where the step does not answer a next state. -/
def look {α : Type} (f : State → α) (s : State) : Option α :=
  match step s with
  | .next t => some (f t)
  | .fault _ => none
  | .refused _ => none

/-- PC, RUN and FAULT. -/
def verdict (t : State) : Word × RunState × Option Fault := (t.pc, t.run, t.fault)

/-! ## Well-formedness -/

theorem test_wf_sys_0E0_refused : (Instr.sys 0x0E0).wellFormed = false := by decide
theorem test_wf_sys_0EE_refused : (Instr.sys 0x0EE).wellFormed = false := by decide
theorem test_wf_sys_0E1 : (Instr.sys 0x0E1).wellFormed = true := by decide
theorem test_wf_sys_1E0 : (Instr.sys 0x1E0).wellFormed = true := by decide
theorem test_wf_seReg_any_n : (Instr.seReg 1 2 7).wellFormed = true := by decide

/-! ## Decoding: one word per constructor, written out from 30_encoding.md R84 -/

theorem test_decode_cls : decodeTableWord 16 0b0000000011100000 = some (.cls) := by decide
theorem test_decode_ret : decodeTableWord 16 0b0000000011101110 = some (.ret) := by decide
theorem test_decode_sys : decodeTableWord 16 0b0000000100100011 = some (.sys 0x123) := by decide
theorem test_decode_jp : decodeTableWord 16 0b0001101010111100 = some (.jp 0xABC) := by decide
theorem test_decode_call : decodeTableWord 16 0b0010001000010000 = some (.call 0x210) := by decide
theorem test_decode_seImm : decodeTableWord 16 0b0011101000000101 = some (.seImm 0xA 5) := by decide
theorem test_decode_sneImm : decodeTableWord 16 0b0100000111111111 = some (.sneImm 1 0xFF) := by decide
theorem test_decode_seReg : decodeTableWord 16 0b0101000100100111 = some (.seReg 1 2 7) := by decide
theorem test_decode_ldImm : decodeTableWord 16 0b0110101000000101 = some (.ldImm 0xA 5) := by decide
theorem test_decode_addImm : decodeTableWord 16 0b0111111100000001 = some (.addImm 0xF 1) := by decide
theorem test_decode_ldReg : decodeTableWord 16 0b1000000100100000 = some (.ldReg 1 2) := by decide
theorem test_decode_orReg : decodeTableWord 16 0b1000000100100001 = some (.orReg 1 2) := by decide
theorem test_decode_andReg : decodeTableWord 16 0b1000000100100010 = some (.andReg 1 2) := by decide
theorem test_decode_xorReg : decodeTableWord 16 0b1000000100100011 = some (.xorReg 1 2) := by decide
theorem test_decode_addReg : decodeTableWord 16 0b1000000100100100 = some (.addReg 1 2) := by decide
theorem test_decode_subReg : decodeTableWord 16 0b1000000100100101 = some (.subReg 1 2) := by decide
theorem test_decode_shr : decodeTableWord 16 0b1000000100100110 = some (.shr 1 2) := by decide
theorem test_decode_subnReg : decodeTableWord 16 0b1000000100100111 = some (.subnReg 1 2) := by decide
theorem test_decode_shl : decodeTableWord 16 0b1000000100101110 = some (.shl 1 2) := by decide
theorem test_decode_sneReg : decodeTableWord 16 0b1001000100101010 = some (.sneReg 1 2 0xA) := by decide
theorem test_decode_ldI : decodeTableWord 16 0b1010001100000001 = some (.ldI 0x301) := by decide
theorem test_decode_jpV0 : decodeTableWord 16 0b1011001000000001 = some (.jpV0 0x201) := by decide
theorem test_decode_rnd : decodeTableWord 16 0b1100000100001111 = some (.rnd 1 0x0F) := by decide
theorem test_decode_drw : decodeTableWord 16 0b1101000000010010 = some (.drw 0 1 2) := by decide
theorem test_decode_skp : decodeTableWord 16 0b1110001010011110 = some (.skp 2) := by decide
theorem test_decode_sknp : decodeTableWord 16 0b1110001010100001 = some (.sknp 2) := by decide
theorem test_decode_addI : decodeTableWord 16 0b1111001100011110 = some (.addI 3) := by decide
theorem test_decode_storeRegs : decodeTableWord 16 0b1111000101010101 = some (.storeRegs 1) := by decide
theorem test_decode_loadRegs : decodeTableWord 16 0b1111000101100101 = some (.loadRegs 1) := by decide

theorem test_decode_sys_00E1 : decodeTableWord 16 0x00E1 = some (.sys 0x0E1) := by decide
theorem test_decode_illegal_8018 : decodeTableWord 16 0x8018 = none := by decide
theorem test_decode_illegal_E0A0 : decodeTableWord 16 0xE0A0 = none := by decide
theorem test_decode_illegal_F00A : decodeTableWord 16 0xF00A = none := by decide
theorem test_decode_keeps_the_rest : decode [0x60, 0x05, 0x61] = .ok (.ldImm 0 5, [0x61]) := rfl
theorem test_decode_one_byte_is_no_instruction : decode [0x60] = .error .truncated := rfl
theorem test_encode_drw : encodeBytes (.drw 0 1 2) = [0xD0, 0x12] := by decide

/-! ## One step of each instruction -/

theorem test_sys_T2 :
    look (fun t => (t.pc, t.v, t.run)) (word 0x0123 boot) = some (0x123, boot.v, .running) := by decide
theorem test_sys_T3 :
    look (fun t => t.pc) (word 0x00E1 boot) = some 0x0E1 := by decide
theorem test_ret_T4 :
    look (fun t => (t.pc, t.sp.val, t.stack[0])) (word 0x00EE { boot with pc := 0x214, sp := 1, stack := boot.stack.set 0 0x208 }) = some (0x208, 0, 0x208) := by decide
theorem test_ret_T5 :
    look (fun t => verdict t) (word 0x00EE boot) = some (0x200, .faulted, some (.stackUnderflow 0x200)) := by decide
theorem test_jp_T7 :
    look (fun t => t.pc) (word 0x1000 boot) = some 0x000 := by decide
theorem test_jp_T12 :
    look (fun t => verdict t) (word 0x1201 boot) = some (0x201, .running, none) := by decide
theorem test_call_T14 :
    look (fun t => (t.pc, t.sp.val, t.stack[15])) (word 0x2300 { boot with sp := 15 }) = some (0x300, 16, 0x202) := by decide
theorem test_call_T15 :
    look (fun t => (verdict t, t.sp.val, t.stack[15])) (word 0x2300 { boot with sp := 16, stack := boot.stack.set 15 0x555 }) = some ((0x200, .faulted, some (.stackOverflow 0x200)), 16, 0x555) := by decide
theorem test_jpV0_T18 :
    look (fun t => t.pc) (word 0xBFFF (regs [(0, 0x02)] boot)) = some 0x1001 := by decide
theorem test_jpV0_T20 :
    look (fun t => t.pc) (word 0xB200 (regs [(0, 0x00), (0xB, 0x44)] boot)) = some 0x200 := by decide
theorem test_seImm_T21 :
    look (fun t => t.pc) (word 0x3005 (regs [(0, 0x05)] { boot with pc := 0x20A })) = some 0x20E := by decide
theorem test_seImm_T22 :
    look (fun t => t.pc) (word 0x3005 (regs [(0, 0x04)] { boot with pc := 0x20A })) = some 0x20C := by decide
theorem test_sneImm_T25 :
    look (fun t => t.pc) (word 0x41FF (regs [(1, 0x00)] boot)) = some 0x204 := by decide
theorem test_sneImm_T26 :
    look (fun t => t.pc) (word 0x41FF (regs [(1, 0xFF)] boot)) = some 0x202 := by decide
theorem test_seReg_T28 :
    look (fun t => t.pc) (word 0x5120 (regs [(1, 7), (2, 8)] boot)) = some 0x202 := by decide
theorem test_seReg_T30 :
    look (fun t => t.pc) (word 0x5127 (regs [(1, 7), (2, 7)] boot)) = some 0x204 := by decide
theorem test_sneReg_T32 :
    look (fun t => t.pc) (word 0x9120 (regs [(1, 7), (2, 7)] boot)) = some 0x202 := by decide
theorem test_sneReg_T34 :
    look (fun t => t.pc) (word 0x912A (regs [(1, 7), (2, 8)] boot)) = some 0x204 := by decide
theorem test_ldImm_U3 :
    look (fun t => (t.pc, getReg t 0xA)) (word 0x6A00 (regs [(0xA, 0x77)] boot)) = some (0x202, 0x00) := by decide
theorem test_ldImm_U2 :
    look (fun t => (t.pc, getReg t 0xF)) (word 0x6FFF boot) = some (0x202, 0xFF) := by decide
theorem test_addImm_U4 :
    look (fun t => (t.pc, getReg t 0xA, getReg t 0xF)) (word 0x7A02 (regs [(0xA, 0xFF)] boot)) = some (0x202, 0x01, 0x00) := by decide
theorem test_addImm_U6 :
    look (fun t => (t.pc, getReg t 0xF)) (word 0x7F01 (regs [(0xF, 0xFF)] boot)) = some (0x202, 0x00) := by decide
theorem test_ldI_U9 :
    look (fun t => (t.pc, t.i)) (word 0xAFFF { boot with i := 0xFFFF }) = some (0x202, 0x0FFF) := by decide
theorem test_addI_U13 :
    look (fun t => (t.pc, t.i, getReg t 0xF)) (word 0xF01E (regs [(0, 1), (0xF, 7)] { boot with i := 0xFFFF })) = some (0x202, 0x0000, 0x07) := by decide
theorem test_addI_U14 :
    look (fun t => (t.pc, t.i)) (word 0xFF1E (regs [(0xF, 0xFF)] { boot with i := 0x0100 })) = some (0x202, 0x01FF) := by decide
theorem test_rnd_U15 :
    look (fun t => (t.pc, getReg t 1, t.randQueue)) (word 0xC10F { boot with randQueue := [0xA7] }) = some (0x202, 0x07, []) := by decide
theorem test_rnd_U16 :
    look (fun t => (t.pc, getReg t 1, t.randQueue)) (word 0xC100 (regs [(1, 0x55)] { boot with randQueue := [0xFF, 0x3C] })) = some (0x202, 0x00, [0x3C]) := by decide
theorem test_ldReg_A3 :
    look (fun t => (t.pc, getReg t 0xF, getReg t 2)) (word 0x8F20 (regs [(2, 0x42)] boot)) = some (0x202, 0x42, 0x42) := by decide
theorem test_orReg_A5 :
    look (fun t => (t.pc, getReg t 0, getReg t 0xF)) (word 0x8011 (regs [(0, 0xF0), (1, 0x0F), (0xF, 1)] boot)) = some (0x202, 0xFF, 1) := by decide
theorem test_andReg_A6 :
    look (fun t => (t.pc, getReg t 0, getReg t 0xF)) (word 0x8012 (regs [(0, 0xF0), (1, 0x3C), (0xF, 1)] boot)) = some (0x202, 0x30, 1) := by decide
theorem test_xorReg_A7 :
    look (fun t => (t.pc, getReg t 0, getReg t 0xF)) (word 0x8013 (regs [(0, 0xAA), (1, 0x55), (0xF, 1)] boot)) = some (0x202, 0xFF, 1) := by decide
theorem test_xorReg_A8 :
    look (fun t => (t.pc, getReg t 0)) (word 0x8003 (regs [(0, 0xAA)] boot)) = some (0x202, 0x00) := by decide
theorem test_addReg_A12 :
    look (fun t => (t.pc, getReg t 0, getReg t 0xF)) (word 0x8014 (regs [(0, 0x80), (1, 0x80)] boot)) = some (0x202, 0x00, 0x01) := by decide
theorem test_addReg_A16 :
    look (fun t => (t.pc, getReg t 0xF)) (word 0x8F14 (regs [(0xF, 3), (1, 2)] boot)) = some (0x202, 0x00) := by decide
theorem test_subReg_A20 :
    look (fun t => (t.pc, getReg t 0, getReg t 0xF)) (word 0x8015 (regs [(0, 3), (1, 5), (0xF, 1)] boot)) = some (0x202, 0xFE, 0x00) := by decide
theorem test_subReg_A21 :
    look (fun t => (t.pc, getReg t 0, getReg t 0xF)) (word 0x8015 (regs [(0, 7), (1, 7), (0xF, 1)] boot)) = some (0x202, 0x00, 0x00) := by decide
theorem test_shr_A32 :
    look (fun t => (t.pc, getReg t 1, getReg t 0xF)) (word 0x8126 (regs [(1, 4), (2, 0xFF), (0xF, 1)] boot)) = some (0x202, 0x02, 0x00) := by decide
theorem test_shr_A39 :
    look (fun t => (t.pc, getReg t 0xF)) (word 0x8F06 (regs [(0xF, 0xFF)] boot)) = some (0x202, 0x01) := by decide
theorem test_subnReg_A26 :
    look (fun t => (t.pc, getReg t 0, getReg t 0xF)) (word 0x8017 (regs [(0, 3), (1, 5)] boot)) = some (0x202, 0x02, 0x01) := by decide
theorem test_subnReg_A28 :
    look (fun t => (t.pc, getReg t 0, getReg t 0xF)) (word 0x8017 (regs [(0, 7), (1, 7), (0xF, 1)] boot)) = some (0x202, 0x00, 0x00) := by decide
theorem test_shl_A40 :
    look (fun t => (t.pc, getReg t 1, getReg t 0xF)) (word 0x810E (regs [(1, 0x81)] boot)) = some (0x202, 0x02, 0x01) := by decide
theorem test_shl_A44 :
    look (fun t => (t.pc, getReg t 0xF)) (word 0x8F0E (regs [(0xF, 0x7F)] boot)) = some (0x202, 0x00) := by decide
theorem test_cls_G1 :
    look (fun t => (t.pc, memRead t.mem 0xEFF, memRead t.mem 0xF00, memRead t.mem 0xFFF, getReg t 0xF)) (word 0x00E0 (regs [(0xF, 1)] (bytesAt 0xEFF [0xAA, 0xFF] (bytesAt 0xFFF [0x01] boot)))) = some (0x202, 0xAA, 0x00, 0x00, 0x01) := by decide +kernel
theorem test_drw_G3 :
    look (fun t => (t.pc, getReg t 0xF, memRead t.mem 0xFF8, memRead t.mem 0xFFF)) (word 0xD011 (regs [(0, 0x3E), (1, 0x1F)] (bytesAt 0x20C [0xF0] { boot with i := 0x20C }))) = some (0x202, 0x00, 0xC0, 0x03) := by decide
theorem test_drw_G20 :
    look (fun t => (t.pc, getReg t 0xF, memRead t.mem 0xF00, memRead t.mem 0xF08)) (word 0xD012 (bytesAt 0xEFF [0xFF, 0x0F] { boot with i := 0xEFF })) = some (0x202, 0x01, 0xF0, 0x0F) := by decide
theorem test_skp_H4 :
    look (fun t => t.pc) (word 0xE29E (regs [(2, 0x0F)] { boot with keys := 0x8000 })) = some 0x204 := by decide
theorem test_skp_H3 :
    look (fun t => t.pc) (word 0xE29E (regs [(2, 0x10)] { boot with keys := 0xFFFF })) = some 0x202 := by decide
theorem test_sknp_H8 :
    look (fun t => t.pc) (word 0xE2A1 (regs [(2, 0x05)] { boot with keys := 0x0020 })) = some 0x202 := by decide
theorem test_sknp_H9 :
    look (fun t => t.pc) (word 0xE2A1 (regs [(2, 0x80)] { boot with keys := 0xFFFF })) = some 0x204 := by decide
theorem test_storeRegs_X1 :
    look (fun t => (t.pc, t.i, memRead t.mem 0x300, memRead t.mem 0x301, memRead t.mem 0x302)) (word 0xF155 (regs [(0, 0xFF), (1, 0x55), (2, 0x77)] { boot with i := 0x300 })) = some (0x202, 0x300, 0xFF, 0x55, 0x00) := by decide
theorem test_storeRegs_X3 :
    look (fun t => (verdict t, memRead t.mem 0xFFF)) (word 0xF155 (regs [(0, 0xAB), (1, 0xCD)] { boot with i := 0xFFF })) = some ((0x200, .faulted, some (.outOfBoundsTransfer 0x200 .write 0xFFF 2)), 0x00) := by decide
theorem test_loadRegs_X9 :
    look (fun t => (t.pc, getReg t 0, getReg t 1, getReg t 2)) (word 0xF165 (regs [(2, 0x11)] (bytesAt 0x300 [0xFF, 0x55, 0x99] { boot with i := 0x300 }))) = some (0x202, 0xFF, 0x55, 0x11) := by decide
theorem test_loadRegs_X13 :
    look (fun t => (verdict t, getReg t 0)) (word 0xF165 (regs [(0, 3)] { boot with i := 0xFFF })) = some ((0x200, .faulted, some (.outOfBoundsTransfer 0x200 .read 0xFFF 2)), 0x03) := by decide

/-! ## Fetch, illegal words and the host interface -/

theorem test_fetch_Z1 : look (fun t => t.pc) (word 0x1200 { boot with pc := 0xFFE }) = some 0x200 := by decide
theorem test_fetch_Z2 :
    look verdict (bytesAt 0xFFF [0x60] { boot with pc := 0xFFF }) =
      some (0xFFF, .faulted, some (.outOfBoundsFetch 0xFFF 0x1000)) := by decide
theorem test_fetch_Z4 :
    look verdict { boot with pc := 0xFFFF } =
      some (0xFFFF, .faulted, some (.outOfBoundsFetch 0xFFFF 0xFFFF)) := by decide
theorem test_fetch_Z5 :
    look (fun t => (t.pc, getReg t 0)) (bytesAt 0x201 [0x60, 0x05] { boot with pc := 0x201 }) = some (0x203, 5) := by decide
theorem test_illegal_A46 :
    look verdict (word 0x8018 boot) = some (0x200, .faulted, some (.unrecognizedInstruction 0x200 0x8018)) := by decide
theorem test_illegal_Y1 :
    look verdict (word 0xF007 boot) = some (0x200, .faulted, some (.unrecognizedInstruction 0x200 0xF007)) := by decide

/-- Nothing loaded: the zeroed memory is SYS 0, which loops at address 0 (vector L5). -/
theorem test_step_from_reset_L5 : look verdict boot = some (0x000, .running, none) := by decide
theorem test_step_again_L5 : look verdict { boot with pc := 0 } = some (0x000, .running, none) := by decide

theorem test_load_L4 :
    (let s := (transact (.load [0x56]) (transact (.load [0x12, 0x34]) boot).1).1
     (memRead s.mem 0x200, memRead s.mem 0x201)) = (0x56, 0x34) := by decide
theorem test_load_overflow_L2 : loadOverflows (List.replicate 0xD01 1) boot = true := by
  rw [loadOverflows, List.length_replicate]; decide
theorem test_step_of_halted_L8 :
    transact .step (transact .halt boot).1 = ({ boot with run := .halted }, .notRunning) := by decide
theorem test_tick_L9 : transact .tickTimers { boot with dt := 2, st := 0 } = ({ boot with dt := 1, st := 0 }, .ok) := by
  decide
theorem test_faulted_step_replies_L6 :
    (transact .step (word 0xF007 { boot with pc := 0x202 })).2 =
      .faulted (.unrecognizedInstruction 0x202 0xF007) := by decide
theorem test_load_overflow_code : replyCode (.loadOverflow 0xD01) = 6 ∧ replyCode .notRunning = 0 := by decide
theorem test_fault_codes : [faultCode none, faultCode (some (.outOfBoundsFetch 0 0)),
    faultCode (some (.outOfBoundsTransfer 0 .read 0 1)), faultCode (some (.stackOverflow 0)),
    faultCode (some (.stackUnderflow 0)), faultCode (some (.unrecognizedInstruction 0 0))] = [0, 1, 2, 3, 4, 5] := by
  decide


/-! ## Witnesses: states and operands that meet the hypotheses of the statements, each clause at a boundary -/

theorem witness_DecodeOfEncode : (Instr.sys 0xFFF).wellFormed = true ∧ (Instr.drw 0xF 0xF 0xF).wellFormed = true := by
  decide
theorem witness_EncodeOfDecode : decodeWord 0x00E1 = .ok (.sys 0x0E1) ∧ decodeWord 0xFF65 = .ok (.loadRegs 0xF) :=
  ⟨rfl, rfl⟩
theorem witness_IllegalWordsExactly :
    (decodeWord 0x8008 = .error (.unrecognized 0x8008) ∧ decodeWord 0x8FFF = .error (.unrecognized 0x8FFF))
      ∧ decodeWord 0xE09F = .error (.unrecognized 0xE09F) ∧ decodeWord 0xF066 = .error (.unrecognized 0xF066) :=
  ⟨⟨rfl, rfl⟩, rfl, rfl⟩
theorem witness_DecodeFollowsOpcodeTable :
    decodeWord 0x00E0 = .ok .cls ∧ decodeWord 0xFFFF = .error (.unrecognized 0xFFFF)
      ∧ (0x00E0 : Word) &&& 0xF000 = 0x0000 := ⟨rfl, rfl, by decide⟩

/-- The last word of memory can be fetched (vector Z1). -/
def lastWord : State := word 0x1200 { boot with pc := 0xFFE }
theorem witness_StepRunsTheDecodedInstruction :
    lastWord.cfg.Valid ∧ lastWord.run = .running ∧ lastWord.pc.toNat + 1 < lastWord.cfg.memSize
      ∧ decode [memRead lastWord.mem lastWord.pc.toNat, memRead lastWord.mem (lastWord.pc.toNat + 1)] =
        .ok (.jp 0x200, []) := ⟨by decide, rfl, by decide, rfl⟩
/-- The same with an odd PC (vector Z5). -/
def oddPc : State := bytesAt 0x201 [0x60, 0x05] { boot with pc := 0x201 }
theorem witness_StepRunsTheDecodedInstruction_odd :
    oddPc.cfg.Valid ∧ oddPc.run = .running ∧ oddPc.pc.toNat + 1 < oddPc.cfg.memSize
      ∧ decode [memRead oddPc.mem oddPc.pc.toNat, memRead oddPc.mem (oddPc.pc.toNat + 1)] =
        .ok (.ldImm 0 5, []) := ⟨by decide, rfl, by decide, rfl⟩

theorem witness_FetchOutsideMemoryFaults_first :
    let s : State := { boot with pc := 0x1000 }
    s.cfg.Valid ∧ s.run = .running ∧ s.cfg.memSize ≤ s.pc.toNat := by decide
theorem witness_FetchOutsideMemoryFaults_second :
    let s : State := { boot with pc := 0xFFF }
    s.cfg.Valid ∧ s.run = .running ∧ s.pc.toNat + 1 = s.cfg.memSize := by decide

/-- An illegal word at PC (vector Y1). -/
def illegalAtPc : State := word 0xF007 boot
theorem witness_IllegalWordFaults :
    illegalAtPc.cfg.Valid ∧ illegalAtPc.run = .running ∧ illegalAtPc.pc.toNat + 1 < illegalAtPc.cfg.memSize
      ∧ wordOfBytes (memRead illegalAtPc.mem illegalAtPc.pc.toNat) (memRead illegalAtPc.mem (illegalAtPc.pc.toNat + 1))
        = 0xF007
      ∧ decodeWord 0xF007 = .error (.unrecognized 0xF007) := ⟨by decide, rfl, by decide, by decide, rfl⟩

theorem witness_StepOutsideRunningChangesNothing :
    (let s : State := { boot with run := .halted }; s.cfg.Valid ∧ s.run ≠ .running)
      ∧ (let s : State := { boot with run := .faulted, fault := some (.stackUnderflow 0x200) }
         s.cfg.Valid ∧ s.run ≠ .running) := by decide
/-- FB_WIDTH is no multiple of 8. -/
theorem witness_InvalidConfigurationRefused :
    (let s : State := { boot with cfg := { Config.default with fbWidth := 12 } }; ¬ s.cfg.Valid)
      ∧ Config.default.Valid ∧ ¬ ({ Config.default with memSize := 0x1002 } : Config).Valid := by decide
/-- A `load` that would run past MEM_SIZE 0x200 is refused: the configuration breaks R7. -/
theorem test_load_refused_R7 :
    let s : State := { boot with cfg := { Config.default with memSize := 0x200 } }
    transact (.load [1, 2, 3]) s = (s, .refused .invalidConfiguration) := by decide
theorem witness_StepAlwaysAnswersNext : boot.cfg.Valid := by decide

theorem witness_RandomAndsOneDrawnByte :
    (let s : State := { boot with randQueue := [0xA7] }; s.randQueue = 0xA7 :: []) ∧ boot.randQueue = [] := by decide
theorem witness_AddSetsCarry : (0 : Nibble) ≠ 15 ∧ ¬ (15 : Nibble) ≠ 15 := by decide
theorem witness_SubtractSetsStrictFlag : (14 : Nibble) ≠ 15 ∧ ¬ (15 : Nibble) ≠ 15 := by decide
theorem witness_ShiftRightKeepsOldLowBit : (14 : Nibble) ≠ 15 ∧ ¬ (15 : Nibble) ≠ 15 := by decide
theorem witness_ShiftLeftKeepsOldHighBit : (14 : Nibble) ≠ 15 ∧ ¬ (15 : Nibble) ≠ 15 := by decide

theorem witness_CallPushesReturnAddress :
    boot.sp.val < 16 ∧ (let s : State := { boot with sp := 15 }; s.sp.val < 16) := by decide
theorem witness_ReturnPopsIntoPc :
    (let s : State := { boot with sp := 1 }; 0 < s.sp.val) ∧ (let s : State := { boot with sp := 16 }; 0 < s.sp.val) := by
  decide
theorem witness_StackFaultsChangeNothingElse :
    (let s : State := { boot with sp := 16 }; s.sp.val = 16) ∧ boot.sp.val = 0 := by decide

/-- CALL 0x210 at 0x206 and RET at 0x210, fifteen entries on the stack. -/
def callAndReturn : State := bytesAt 0x206 [0x22, 0x10] (bytesAt 0x210 [0x00, 0xEE] { boot with pc := 0x206, sp := 15 })
theorem witness_CallThenReturnComesBack :
    let s := callAndReturn
    s.cfg.Valid ∧ s.run = .running ∧ s.sp.val < 16 ∧ s.pc.toNat + 1 < s.cfg.memSize
      ∧ (0x210 : Addr12).toNat + 1 < s.cfg.memSize
      ∧ wordOfBytes (memRead s.mem s.pc.toNat) (memRead s.mem (s.pc.toNat + 1)) = encode (.call 0x210)
      ∧ wordOfBytes (memRead s.mem (0x210 : Addr12).toNat) (memRead s.mem ((0x210 : Addr12).toNat + 1)) = encode .ret := by
  decide

theorem witness_ClearZeroesFramebufferOnly :
    (boot.cfg.fbOrigin ≤ 0xF00 ∧ 0xF00 < boot.cfg.memSize) ∧ (boot.cfg.fbOrigin ≤ 0xFFF ∧ 0xFFF < boot.cfg.memSize)
      ∧ (0xEFF < boot.cfg.fbOrigin ∨ boot.cfg.memSize ≤ 0xEFF) ∧ (0x1000 < boot.cfg.fbOrigin ∨ boot.cfg.memSize ≤ 0x1000) := by
  decide

/-- No rows, I at its largest; and the last row in the last byte of memory (vectors G11, G14). -/
theorem witness_DrawInvertsLandedPixels :
    boot.cfg.Valid
      ∧ (let s : State := { boot with i := 0xFFFF }
         (0 : Nibble).toNat = 0 ∨ s.i.toNat + (0 : Nibble).toNat ≤ s.cfg.memSize)
      ∧ (let s : State := { boot with i := 0xFF1 }
         (15 : Nibble).toNat = 0 ∨ s.i.toNat + (15 : Nibble).toNat ≤ s.cfg.memSize)
      ∧ 63 < boot.cfg.fbWidth ∧ 31 < boot.cfg.fbHeight := by decide
/-- A draw that collides and one that does not (vectors G18 and G6). -/
def overSetPixel : State := bytesAt 0x300 [0xC0] (bytesAt 0xF00 [0x40] { boot with i := 0x300 })
theorem witness_DrawInvertsLandedPixels_collides : DrawCollides overSetPixel 0 0 1 :=
  ⟨1, 0, by decide, by decide, .inl ⟨by decide, by decide⟩⟩
theorem witness_DrawInvertsLandedPixels_visits :
    spriteVisits overSetPixel 0 0 1 1 0 = 1 ∧ spriteVisits overSetPixel 0 0 1 2 0 = 0 := by decide
theorem witness_SpriteBitsLandOnDistinctPixels : boot.cfg.Valid ∧ 15 ≤ boot.cfg.fbHeight := by decide
theorem witness_DrawTwiceRestoresFramebuffer :
    overSetPixel.cfg.Valid ∧ overSetPixel.i.toNat + (1 : Nibble).toNat ≤ overSetPixel.cfg.fbOrigin
      ∧ (0 : Nibble) ≠ 15 ∧ (1 : Nibble) ≠ 15
      ∧ ∃ px py, px < overSetPixel.cfg.fbWidth ∧ py < overSetPixel.cfg.fbHeight
        ∧ 1 ≤ spriteVisits overSetPixel 0 1 1 px py ∧ pixel overSetPixel.cfg overSetPixel.mem px py = false :=
  ⟨by decide, by decide, by decide, by decide, 0, 0, by decide, by decide, by decide, by decide⟩
theorem witness_PixelTranslatorIsOneToOne :
    let c := Config.default
    c.Valid ∧ 63 < c.fbWidth ∧ 31 < c.fbHeight ∧ 63 < c.fbWidth ∧ 31 < c.fbHeight
      ∧ fbAddr c 63 31 = fbAddr c 63 31 ∧ fbBit c 63 31 = fbBit c 63 31 := by decide

theorem witness_StoreRegistersWritesMemory :
    let s : State := { boot with i := 0xFF0 }
    s.i.toNat + (15 : Nibble).toNat < s.cfg.memSize ∧ (15 : Nibble).toNat ≤ (15 : Nibble).toNat := by decide
theorem witness_LoadRegistersReadsMemory :
    let s : State := { boot with i := 0xFFF }
    s.i.toNat + (0 : Nibble).toNat < s.cfg.memSize ∧ (0 : Nibble).toNat ≤ (0 : Nibble).toNat := by decide
theorem witness_TransfersOutsideMemoryFault :
    (let s : State := { boot with i := 0xFF1 }; s.cfg.memSize ≤ s.i.toNat + (15 : Nibble).toNat)
      ∧ (let s : State := { boot with i := 0xFFF }
         0 < (2 : Nibble).toNat ∧ s.cfg.memSize < s.i.toNat + (2 : Nibble).toNat) := by decide

/-- A register file stored at the top of memory, and the state after it with V0 overwritten. -/
def beforeStore : State := regs [(0, 0xAB), (1, 0xCD)] { boot with i := 0xFFE }
def afterStore : State := { advance beforeStore with mem := storeBytes beforeStore.mem 0xFFE [0xAB, 0xCD] }
def overwritten : State := regs [(0, 0)] afterStore
theorem witness_StoreThenLoadRestoresRegisters :
    beforeStore.i.toNat + (1 : Nibble).toNat < beforeStore.cfg.memSize
      ∧ exec (.storeRegs 1) beforeStore = .next afterStore ∧ overwritten.cfg = afterStore.cfg
      ∧ overwritten.mem = afterStore.mem ∧ overwritten.i = afterStore.i :=
  ⟨by decide, rfl, rfl, rfl, rfl⟩

/-- Program P6 of 95_test_vectors.md at its fourth step: the store overwrites the next instruction. -/
def selfModifying : State := regs [(0, 0x12), (1, 0x0A)] { boot with pc := 0x206, i := 0x208 }
def afterModifying : State :=
  { advance selfModifying with mem := storeBytes selfModifying.mem 0x208 [0x12, 0x0A] }
theorem witness_StoreIsSeenByNextFetch :
    selfModifying.cfg.Valid ∧ selfModifying.run = .running
      ∧ selfModifying.i.toNat + (1 : Nibble).toNat < selfModifying.cfg.memSize
      ∧ exec (.storeRegs 1) selfModifying = .next afterModifying
      ∧ (1 : Nibble).toNat = (0 : Nibble).toNat + 1 ∧ (1 : Nibble).toNat ≤ (1 : Nibble).toNat
      ∧ afterModifying.pc.toNat = selfModifying.i.toNat + (0 : Nibble).toNat
      ∧ decode [getReg selfModifying 0, getReg selfModifying 1] = .ok (.jp 0x20A, []) :=
  ⟨by decide, rfl, by decide, rfl, by decide, by decide, by decide, rfl⟩

/-- Each clause of the write matrix has an instruction that changes what the clause is about. -/
theorem witness_WriteMatrixHolds_reg : ∃ t, exec (.ldImm 3 5) boot = .next t ∧ getReg t 3 ≠ getReg boot 3 :=
  ⟨_, rfl, by decide⟩
theorem witness_WriteMatrixHolds_index : ∃ t, exec (.ldI 0x300) boot = .next t ∧ t.i ≠ boot.i := ⟨_, rfl, by decide⟩
theorem witness_WriteMatrixHolds_memory : exec (.storeRegs 1) beforeStore = .next afterStore
    ∧ afterStore.mem ≠ beforeStore.mem := ⟨rfl, by decide⟩
theorem witness_WriteMatrixHolds_byte : memRead afterStore.mem 0xFFF ≠ memRead beforeStore.mem 0xFFF := by decide
theorem witness_WriteMatrixHolds_run : ∃ t, exec .ret boot = .next t ∧ ¬ SameRun boot t :=
  ⟨_, rfl, fun h => absurd h.1 (by decide)⟩
theorem witness_WriteMatrixHolds_stack : ∃ t, exec (.call 0x300) boot = .next t ∧ t.stack ≠ boot.stack ∧ t.sp ≠ boot.sp :=
  ⟨_, rfl, by decide, by decide⟩
theorem witness_WriteMatrixHolds_random : ∃ t, exec (.rnd 0 0xFF) boot = .next t ∧ ¬ SameRand boot t :=
  ⟨_, rfl, fun h => absurd h.2 (by decide)⟩

theorem witness_KeysAreReadByKeySkipsOnly : (∀ x, Instr.ret ≠ .skp x) ∧ (∀ x, Instr.ret ≠ .sknp x) :=
  ⟨fun _ h => Instr.noConfusion h, fun _ h => Instr.noConfusion h⟩
theorem witness_RandomPortIsAskedByRndOnly : ∀ x nn, Instr.drw 0 0 1 ≠ .rnd x nn := fun _ _ h => Instr.noConfusion h

theorem witness_FaultingStepChangesNothingElse :
    ∃ t, step illegalAtPc = .next t ∧ illegalAtPc.run = .running ∧ t.run = .faulted := ⟨_, rfl, rfl, rfl⟩
theorem witness_RunChangesOnlyByFaulting : ∃ t, step lastWord = .next t := ⟨_, rfl⟩

theorem witness_StepKeepsMemoryInv : MemoryInv lastWord ∧ ∃ t, step lastWord = .next t :=
  ⟨⟨by decide, by decide⟩, _, rfl⟩
theorem witness_StepKeepsFaultRecordInv : FaultRecordInv illegalAtPc ∧ ∃ t, step illegalAtPc = .next t :=
  ⟨⟨by decide, fun h => absurd h (by decide)⟩, _, rfl⟩
theorem witness_StepKeepsPcBoundInv : PcBoundInv lastWord ∧ ∃ t, step lastWord = .next t :=
  ⟨⟨by decide, by decide⟩, _, rfl⟩
theorem witness_ResetMeetsInv : Config.default.Valid := by decide
theorem witness_TransactionKeepsInv : StateInv lastWord :=
  ⟨by decide, ⟨by decide, by decide⟩, ⟨by decide, fun h => absurd h (by decide)⟩, by decide, by decide⟩
theorem witness_ReachableStatesMeetInv : Reachable (word 0x6005 boot) :=
  ⟨Config.default, boot, [.load [0x60, 0x05]], rfl, by decide⟩
theorem witness_TimersStayZero : TimersZero boot := ⟨rfl, rfl⟩

theorem witness_RunStateMachine :
    boot.cfg.Valid ∧ boot.run = .running
      ∧ (let s : State := { boot with run := .halted }; s.run ≠ .running)
      ∧ (Transaction.tickTimers ≠ .reset ∧ Transaction.tickTimers ≠ .halt ∧ Transaction.tickTimers ≠ .resume
        ∧ Transaction.tickTimers ≠ .step) := by decide
theorem witness_FaultedUntilReset :
    (let s : State := { boot with run := .faulted, fault := some (.stackUnderflow 0x200) }; s.run = .faulted)
      ∧ ∀ tr ∈ [Transaction.resume, .halt, .load [0x12, 0x00], .step], tr ≠ .reset := by decide
/-- The longest image that fits, and one byte more (vectors L1, L2). -/
theorem witness_LoadCopiesImageOrNothing :
    boot.cfg.Valid ∧ boot.cfg.progOrigin + (List.replicate 0xD00 (1 : Byte)).length ≤ boot.cfg.fbOrigin
      ∧ boot.cfg.fbOrigin < boot.cfg.progOrigin + (List.replicate 0xD01 (1 : Byte)).length := by
  rw [List.length_replicate, List.length_replicate]; decide
theorem witness_HostReadsAndWrites : boot.cfg.Valid := by decide
/-- One RUNNING state for each kind a step raises, at the boundary of its condition, and one that raises none. -/
theorem witness_FaultKindsAndCodes :
    boot.cfg.Valid ∧ boot.run = .running
      ∧ stepRaises { boot with pc := 0xFFF } = some .outOfBoundsFetch
      ∧ stepRaises (word 0xFF55 { boot with i := 0xFF1 }) = some .outOfBoundsTransfer
      ∧ stepRaises (word 0xD012 { boot with i := 0xFFF }) = some .outOfBoundsTransfer
      ∧ stepRaises (word 0x2300 { boot with sp := 16 }) = some .stackOverflow
      ∧ stepRaises (word 0x00EE boot) = some .stackUnderflow
      ∧ stepRaises illegalAtPc = some .unrecognizedInstruction
      ∧ stepRaises (word 0xD011 { boot with i := 0xFFF }) = none := by decide
theorem witness_ResetLeavesResetValues :
    let s : State := { boot with run := .faulted, fault := some (.stackUnderflow 0x200), pc := 0x333 }
    s.cfg.Valid := by decide

end Sys2Proof.Tests
end

section
/-! PROOF. A configuration that breaks a constraint of 00_scope.md R7 is refused at a step and at creation; the
transactions' lemma is in Laws/HostPort. -/

namespace Sys2Proof.Machine

theorem step_of_not_valid {s : State} (hv : ¬ s.cfg.Valid) : step s = .refused .invalidConfiguration := if_neg hv

theorem createCore_of_valid {c : Config} (hv : c.Valid) : createCore c = .next (State.resetWith c) :=
  (createCore_eq_next_iff c _).mpr ⟨hv, rfl⟩

theorem createCore_of_not_valid {c : Config} (hv : ¬ c.Valid) : createCore c = .refused .invalidConfiguration :=
  if_neg hv

/-- Settles O10: each entry point checks the configuration before anything else. -/
theorem invalidConfigurationRefused : Obligations.InvalidConfigurationRefused := by
  unfold Obligations.InvalidConfigurationRefused
  constructor
  · intro s hv
    exact ⟨step_of_not_valid hv, fun tr => transact_of_not_valid hv tr⟩
  · intro c
    exact ⟨createCore_of_valid, createCore_of_not_valid⟩

end Sys2Proof.Machine
end

section
/-! SUPPORT. All that executing one instruction can do, as one relation between the states before and after it, and
what each part of the state may come to by it. -/

namespace Sys2Proof.Machine

variable {s t : State} {i : Instr}

/-- The instructions that can raise a fault of their own (60_exceptions.md R177). -/
def CanFault (i : Instr) : Prop :=
  i = .ret ∨ (∃ nnn, i = .call nnn) ∨ (∃ x y n, i = .drw x y n) ∨ (∃ x, i = .storeRegs x) ∨ ∃ x, i = .loadRegs x

/-- `ExecEffect s i t`: `t` follows from `s` in one of the ways `i` may act. Instructions that differ only in the value
they write share a constructor, whose hypotheses say which instructions those are; `jump` and `skip` write PC alone, as
any instruction may, and ask nothing of `i`. -/
inductive ExecEffect (s : State) : Instr → State → Prop
  | fault {i : Instr} (f : Fault) (hi : CanFault i) (hf : faultPc f = s.pc) : ExecEffect s i (raiseFault f s)
  | jump {i : Instr} (nnn : Addr12) : ExecEffect s i (jumpTo (zextAddr nnn) (advance s))
  | jumpV0 (nnn : Addr12) :
      ExecEffect s (.jpV0 nnn) (jumpTo (zextAddr nnn + zextByte (getReg s 0)) (advance s))
  | skip {i : Instr} (taken : Bool) : ExecEffect s i (skipIf taken (advance s))
  | call (nnn : Addr12) (h : s.sp.val < 16) :
      ExecEffect s (.call nnn)
        { s with pc := zextAddr nnn, stack := s.stack.set s.sp.val (s.pc + 2) h, sp := ⟨s.sp.val + 1, by omega⟩ }
  | ret (h : 0 < s.sp.val) :
      ExecEffect s .ret { s with pc := s.stack[s.sp.val - 1]'(by omega), sp := ⟨s.sp.val - 1, by omega⟩ }
  | writeReg {i : Instr} (x : Nibble) (b : Byte) (hx : mayWriteReg i x = true) :
      ExecEffect s i (setReg x b (advance s))
  | writeRegAndFlag {i : Instr} (x : Nibble) (b : Byte) (flag : Bool) (hx : mayWriteReg i x = true)
      (hf : mayWriteReg i 15 = true) : ExecEffect s i (writeResultAndFlag x b flag (advance s))
  | writeIndex {i : Instr} (a : Word) (hi : (∃ nnn, i = .ldI nnn) ∨ ∃ x, i = .addI x) :
      ExecEffect s i (setIndex a (advance s))
  | random (x : Nibble) (nn : Byte) :
      ExecEffect s (.rnd x nn) (setReg x (nn &&& nextRandByte s) (dropRandByte (advance s)))
  | clear : ExecEffect s .cls (clearFramebuffer (advance s))
  | draw (x y n : Nibble) :
      ExecEffect s (.drw x y n)
        { s with
          pc := s.pc + 2
          mem := (blit s.cfg (drawnPixels s x y n) s.mem false).1
          v := s.v.set 15 (flagByte (blit s.cfg (drawnPixels s x y n) s.mem false).2) }
  | store (x : Nibble) :
      ExecEffect s (.storeRegs x) { s with pc := s.pc + 2, mem := storeBytes s.mem s.i.toNat (regsUpTo s x) }
  | load (x : Nibble) :
      ExecEffect s (.loadRegs x) { s with pc := s.pc + 2, v := fillRegs s.mem s.i.toNat s.v (x.toNat + 1) }

/-- Every instruction acts in one of those ways. -/
theorem exec_effect (i : Instr) (s : State) : ∃ t, exec i s = .next t ∧ ExecEffect s i t := by
  cases i with
  | cls => exact ⟨_, rfl, .clear⟩
  | ret =>
    rcases execRet_cases s with ⟨_, e⟩ | ⟨h, e⟩
    · exact ⟨_, e, .fault _ (.inl rfl) rfl⟩
    · exact ⟨_, e, .ret h⟩
  | call nnn =>
    rcases execCall_cases nnn s with ⟨_, e⟩ | ⟨h, e⟩
    · exact ⟨_, e, .fault _ (.inr (.inl ⟨_, rfl⟩)) rfl⟩
    · exact ⟨_, e, .call nnn h⟩
  | drw x y n =>
    rcases execDrw_cases x y n s with ⟨_, e⟩ | ⟨_, e⟩
    · exact ⟨_, e, .fault _ (.inr (.inr (.inl ⟨_, _, _, rfl⟩))) rfl⟩
    · exact ⟨_, e, .draw x y n⟩
  | storeRegs x =>
    rcases execStoreRegs_cases x s with ⟨_, e⟩ | ⟨_, e⟩
    · exact ⟨_, e, .fault _ (.inr (.inr (.inr (.inl ⟨_, rfl⟩)))) rfl⟩
    · exact ⟨_, e, .store x⟩
  | loadRegs x =>
    rcases execLoadRegs_cases x s with ⟨_, e⟩ | ⟨_, e⟩
    · exact ⟨_, e, .fault _ (.inr (.inr (.inr (.inr ⟨_, rfl⟩)))) rfl⟩
    · exact ⟨_, e, .load x⟩
  | sys nnn | jp nnn => exact ⟨_, rfl, .jump nnn⟩
  | jpV0 nnn => exact ⟨_, rfl, .jumpV0 nnn⟩
  | seImm _ _ | sneImm _ _ | seReg _ _ _ | sneReg _ _ _ | skp _ | sknp _ => exact ⟨_, rfl, .skip _⟩
  | ldImm x _ | addImm x _ | ldReg x _ | orReg x _ | andReg x _ | xorReg x _ =>
    exact ⟨_, rfl, .writeReg x _ (by simp [mayWriteReg])⟩
  | addReg x _ | subReg x _ | shr x _ | subnReg x _ | shl x _ =>
    exact ⟨_, rfl, .writeRegAndFlag x _ _ (by simp [mayWriteReg]) (by simp [mayWriteReg])⟩
  | ldI nnn => exact ⟨_, rfl, .writeIndex _ (.inl ⟨nnn, rfl⟩)⟩
  | addI x => exact ⟨_, rfl, .writeIndex _ (.inr ⟨x, rfl⟩)⟩
  | rnd x nn => exact ⟨_, rfl, .random x nn⟩

theorem execEffect_of_exec (h : exec i s = .next t) : ExecEffect s i t := by
  obtain ⟨t', e, ht'⟩ := exec_effect i s
  obtain rfl : t' = t := Host.Outcome.next.inj (e.symm.trans h)
  exact ht'

namespace ExecEffect

/-! ## Registers and I -/

theorem mayWriteReg_of_ne (h : ExecEffect s i t) (k : Nibble) (hk : getReg t k ≠ getReg s k) :
    mayWriteReg i k = true := by
  cases h with
  | writeReg x b hx =>
    by_cases hkx : k = x
    · exact hkx ▸ hx
    · exact absurd (by rw [getReg_setReg, if_neg hkx, getReg_advance]) hk
  | writeRegAndFlag x b flag hx hf =>
    by_cases hk15 : k = 15
    · exact hk15 ▸ hf
    · by_cases hkx : k = x
      · exact hkx ▸ hx
      · exact absurd (by rw [getReg_writeResultAndFlag, if_neg hk15, if_neg hkx, getReg_advance]) hk
  | random x nn =>
    by_cases hkx : k = x
    · exact decide_eq_true hkx
    · exact absurd (by rw [getReg_setReg, if_neg hkx, getReg_dropRandByte, getReg_advance]) hk
  | draw x y n =>
    by_cases hk15 : k = 15
    · exact decide_eq_true hk15
    · exact absurd ((getReg_setReg s 15 k _).trans (if_neg hk15)) hk
  | load x =>
    by_cases hkx : k.toNat ≤ x.toNat
    · exact decide_eq_true hkx
    · exact absurd ((getElem_fillRegs _ _ _ _ _ k.isLt).trans (if_neg (by omega))) hk
  | _ => exact absurd rfl hk

theorem of_i_ne (h : ExecEffect s i t) (hne : t.i ≠ s.i) : (∃ nnn, i = .ldI nnn) ∨ ∃ x, i = .addI x := by
  cases h with
  | writeIndex a hi => exact hi
  | _ => exact absurd rfl hne

/-! ## Memory -/

theorem of_mem_ne (h : ExecEffect s i t) (hne : t.mem ≠ s.mem) :
    i = .cls ∨ (∃ x y n, i = .drw x y n) ∨ ∃ x, i = .storeRegs x := by
  cases h with
  | clear => exact .inl rfl
  | draw x y n => exact .inr (.inl ⟨x, y, n, rfl⟩)
  | store x => exact .inr (.inr ⟨x, rfl⟩)
  | _ => exact absurd rfl hne

theorem of_memRead_ne (h : ExecEffect s i t) {a : Nat} (hne : memRead t.mem a ≠ memRead s.mem a) :
    (i = .cls ∧ s.cfg.fbOrigin ≤ a ∧ a < s.cfg.memSize)
      ∨ (∃ x y n, i = .drw x y n ∧ s.cfg.fbOrigin ≤ a ∧ (s.cfg.Valid → a < s.cfg.memSize))
      ∨ ∃ x, i = .storeRegs x ∧ ∃ k : Nat, k ≤ x.toNat ∧ a = s.i.toNat + k := by
  cases h with
  | clear =>
    have hin := mt memRead_storeBytes_outside hne
    rw [List.length_replicate, advance_cfg] at hin
    exact .inl ⟨rfl, by omega⟩
  | draw x y n =>
    refine .inr (.inl ⟨x, y, n, rfl, ?_, fun hv => ?_⟩)
    · exact Nat.le_of_not_lt fun ha => hne (memRead_blit_below _ _ _ ha)
    · exact Nat.lt_of_not_le fun ha => hne (memRead_blit_above hv _ (fun _ => drawnPixels_coords hv) _ _ ha)
  | store x =>
    have hin := mt memRead_storeBytes_outside hne
    rw [length_regsUpTo] at hin
    exact .inr (.inr ⟨x, rfl, a - s.i.toNat, by omega, by omega⟩)
  | _ => exact absurd rfl hne

/-! ## Call stack and PC -/

theorem of_stack_ne (h : ExecEffect s i t) (hne : t.stack ≠ s.stack) : ∃ nnn, i = .call nnn := by
  cases h with
  | call nnn _ => exact ⟨nnn, rfl⟩
  | _ => exact absurd rfl hne

theorem of_sp_ne (h : ExecEffect s i t) (hne : t.sp ≠ s.sp) : i = .ret ∨ ∃ nnn, i = .call nnn := by
  cases h with
  | ret _ => exact .inl rfl
  | call nnn _ => exact .inr ⟨nnn, rfl⟩
  | _ => exact absurd rfl hne

/-- A slot of the stack keeps its address or takes the return address of a CALL (40_control_flow.md R103). -/
theorem stack_slot (h : ExecEffect s i t) (k : Nat) (hk : k < 16) :
    t.stack[k] = s.stack[k] ∨ t.stack[k] = s.pc + 2 := by
  cases h with
  | call nnn hsp =>
    by_cases e : s.sp.val = k
    · exact .inr ((Vector.getElem_set hsp hk).trans (if_pos e))
    · exact .inl ((Vector.getElem_set hsp hk).trans (if_neg e))
  | _ => exact .inl rfl

/-- Where PC can stand after an instruction: at pc0 (a fault), behind the instruction or the one it skips, at NNN, at
NNN + V[0], or at a return address. -/
theorem pc_cases (h : ExecEffect s i t) :
    t.pc = s.pc ∨ t.pc = s.pc + 2 ∨ t.pc = s.pc + 2 + 2 ∨ (∃ nnn, t.pc = zextAddr nnn)
      ∨ (∃ nnn b, t.pc = zextAddr nnn + zextByte b) ∨ ∃ (k : Nat) (hk : k < 16), t.pc = s.stack[k] := by
  cases h with
  | fault f _ _ => exact .inl rfl
  | skip taken =>
    cases taken with
    | false => exact .inr (.inl rfl)
    | true => exact .inr (.inr (.inl rfl))
  | jump nnn | call nnn _ => exact .inr (.inr (.inr (.inl ⟨nnn, rfl⟩)))
  | jumpV0 nnn => exact .inr (.inr (.inr (.inr (.inl ⟨nnn, _, rfl⟩))))
  | ret _ => exact .inr (.inr (.inr (.inr (.inr ⟨_, by omega, rfl⟩))))
  | _ => exact .inr (.inl rfl)

/-! ## Random port, run state, host state -/

theorem of_not_sameRand (h : ExecEffect s i t) (hne : ¬ SameRand s t) : ∃ x nn, i = .rnd x nn := by
  cases h with
  | random x nn => exact ⟨x, nn, rfl⟩
  | _ => exact absurd ⟨rfl, rfl⟩ hne

theorem of_not_sameRun (h : ExecEffect s i t) (hne : ¬ SameRun s t) :
    (∃ f, t = { s with run := .faulted, fault := some f } ∧ faultPc f = s.pc) ∧ CanFault i := by
  cases h with
  | fault f hi hf => exact ⟨⟨f, raiseFault_eq f s, hf⟩, hi⟩
  | _ => exact absurd ⟨rfl, rfl⟩ hne

theorem sameHost (h : ExecEffect s i t) : SameHost s t := by
  cases h <;> exact ⟨rfl, rfl, rfl, rfl⟩

end ExecEffect

end Sys2Proof.Machine
end

section
/-! SUPPORT. All that one instruction and one step can do to RUN, FAULT and what the host alone writes. -/

namespace Sys2Proof.Machine

variable {s t : State}

/-- An instruction that answers `t` has raised a fault, or left RUN, FAULT and the host's state alone. -/
theorem exec_fault_or_same {i : Instr} (h : exec i s = .next t) :
    (∃ f, faultPc f = s.pc ∧ t = raiseFault f s) ∨ (SameRun s t ∧ SameHost s t) := by
  rcases exec_cases i s with ⟨f, e, hf⟩ | ⟨t', e, hsame⟩ <;>
    obtain rfl := Host.Outcome.next.inj (e.symm.trans h)
  · exact .inl ⟨f, hf, rfl⟩
  · exact .inr hsame

/-- A step that answers a next state does nothing outside RUNNING; in RUNNING it raises a fault, or executes an
instruction that was fetched inside memory. -/
theorem step_next_cases (h : step s = .next t) :
    (s.run ≠ .running ∧ t = s) ∨
      (s.run = .running ∧ ∃ f, faultPc f = s.pc ∧ t = raiseFault f s) ∨
      (s.run = .running ∧ s.cfg.Valid ∧ s.pc.toNat + 1 < s.cfg.memSize ∧ ∃ i, exec i s = .next t) := by
  rcases step_cases s with ⟨_, e⟩ | ⟨hv, ⟨hr, e⟩ | ⟨hr, f, _, hf, e⟩ | ⟨hr, i, _, hp, e⟩⟩ <;> rw [e] at h
  · cases h
  · exact .inl ⟨hr, (Host.Outcome.next.inj h).symm⟩
  · exact .inr (.inl ⟨hr, f, hf, (Host.Outcome.next.inj h).symm⟩)
  · exact .inr (.inr ⟨hr, hv, hp, i, h⟩)

/-- What a step can do to RUN, FAULT and the host's state: it raises a fault, which happens in RUNNING only, or leaves
them. -/
theorem step_fault_or_same (h : step s = .next t) :
    (s.run = .running ∧ ∃ f, faultPc f = s.pc ∧ t = raiseFault f s) ∨ (SameRun s t ∧ SameHost s t) := by
  rcases step_next_cases h with ⟨_, rfl⟩ | hf | ⟨hr, _, _, i, e⟩
  · exact .inr ⟨⟨rfl, rfl⟩, rfl, rfl, rfl, rfl⟩
  · exact .inl hf
  · exact (exec_fault_or_same e).imp_left fun hf => ⟨hr, hf⟩

theorem step_sameHost (h : step s = .next t) : SameHost s t := by
  rcases step_fault_or_same h with ⟨_, f, _, rfl⟩ | ⟨_, hh⟩
  · exact ⟨rfl, rfl, rfl, rfl⟩
  · exact hh

end Sys2Proof.Machine
end

section
/-! PROOF. A step and the fault record: RUN leaves RUNNING by a fault alone, and the fault is recorded with PC. -/

namespace Sys2Proof.Machine

theorem faultRecordInv_raiseFault {f : Fault} {s : State} (hf : faultPc f = s.pc) :
    FaultRecordInv (raiseFault f s) :=
  ⟨fun hr => absurd rfl hr, fun _ => ⟨f, rfl, hf⟩⟩

/-- A RUNNING state that records no fault meets the invariant wherever PC stands. -/
theorem faultRecordInv_of_running {s : State} (hr : s.run = .running) (hf : s.fault = none) : FaultRecordInv s :=
  ⟨fun _ => hf, fun h => by rw [hr] at h; cases h⟩

/-- Settles O49: outside RUNNING a step is idle, a fault is recorded with pc0 = PC, and an instruction that does not
fault leaves RUNNING with no fault recorded. -/
theorem stepKeepsFaultRecordInv : Obligations.StepKeepsFaultRecordInv := by
  unfold Obligations.StepKeepsFaultRecordInv
  intro s t hinv h
  rcases step_next_cases h with ⟨_, rfl⟩ | ⟨_, f, hf, rfl⟩ | ⟨hr, _, _, i, e⟩
  · exact hinv
  · exact faultRecordInv_raiseFault hf
  · have hnone : s.fault = none := hinv.1 (by rw [hr]; decide)
    rcases exec_fault_or_same e with ⟨f, hf, rfl⟩ | ⟨⟨hrun, hfault⟩, _⟩
    · exact faultRecordInv_raiseFault hf
    · exact faultRecordInv_of_running (hrun.trans hr) (hfault.trans hnone)

/-- Settles O47. -/
theorem runChangesOnlyByFaulting : Obligations.RunChangesOnlyByFaulting := by
  unfold Obligations.RunChangesOnlyByFaulting
  intro s t h
  rcases step_fault_or_same h with ⟨hr, f, _, rfl⟩ | ⟨⟨hrun, _⟩, _⟩
  · exact .inr ⟨hr, rfl⟩
  · exact .inl hrun

end Sys2Proof.Machine
end

section
/-! PROOF. The bounds of 10_state.md R41 on PC and on the return addresses. -/

namespace Sys2Proof.Machine

/-- MEM_SIZE − 2 fits in the 12 bits of an address literal (00_scope.md R7), so MEM_SIZE is at most 0x1001. -/
theorem memSize_le {c : Config} (hc : c.Valid) : c.memSize ≤ 0x1001 := by
  obtain ⟨_, ⟨_, h⟩, _⟩ := hc
  omega

/-- The largest literal and the largest register make the bound of 10_state.md R41. -/
theorem toNat_zextAddr_add_zextByte_le (nnn : Addr12) (b : Byte) : (zextAddr nnn + zextByte b).toNat ≤ 0x10FE := by
  rw [BitVec.toNat_add, toNat_zextAddr, toNat_zextByte]
  omega

theorem toNat_add_two_le {w : Word} {n : Nat} (h : w.toNat + 2 ≤ n) : (w + 2).toNat ≤ n := by
  rw [BitVec.toNat_add]
  exact Nat.le_trans (Nat.mod_le _ _) h

/-- An instruction fetched inside memory keeps the bounds. -/
theorem exec_keeps_pcBoundInv {s t : State} {i : Instr} (hv : s.cfg.Valid) (hp : s.pc.toNat + 1 < s.cfg.memSize)
    (hinv : PcBoundInv s) (h : exec i s = .next t) : PcBoundInv t := by
  obtain ⟨hpc, hslots⟩ := hinv
  have hm := memSize_le hv
  have heff := execEffect_of_exec h
  obtain ⟨_, _, _, hcfg⟩ := heff.sameHost
  have h2 : (s.pc + 2).toNat ≤ s.cfg.memSize := toNat_add_two_le (by omega)
  refine ⟨?_, fun k hk => ?_⟩
  · rcases heff.pc_cases with e | e | e | ⟨nnn, e⟩ | ⟨nnn, b, e⟩ | ⟨k, hk, e⟩ <;> rw [e]
    · exact hpc
    · omega
    · exact toNat_add_two_le (by omega)
    · rw [toNat_zextAddr]
      omega
    · exact toNat_zextAddr_add_zextByte_le nnn b
    · have := hslots k hk
      omega
  · rw [hcfg]
    rcases heff.stack_slot k hk with e | e <;> rw [e]
    · exact hslots k hk
    · exact h2

/-- Settles O50: only an executed instruction moves PC or writes a slot, and its fetch was inside memory. -/
theorem stepKeepsPcBoundInv : Obligations.StepKeepsPcBoundInv := by
  unfold Obligations.StepKeepsPcBoundInv
  intro s t hinv h
  rcases step_next_cases h with ⟨_, rfl⟩ | ⟨_, f, _, rfl⟩ | ⟨_, hv, hp, i, e⟩
  · exact hinv
  · exact hinv
  · exact exec_keeps_pcBoundInv hv hp hinv e

end Sys2Proof.Machine
end

section
/-! PROOF. The read/write matrix of 10_state.md R40. -/

namespace Sys2Proof.Machine

/-- Settles O42: each clause reads one part of the state off `ExecEffect`. -/
theorem writeMatrixHolds : Obligations.WriteMatrixHolds := by
  unfold Obligations.WriteMatrixHolds
  intro i s t h
  have heff := execEffect_of_exec h
  exact ⟨heff.mayWriteReg_of_ne, heff.of_i_ne, heff.of_mem_ne, fun _ => heff.of_memRead_ne, heff.of_stack_ne,
    heff.of_sp_ne, heff.of_not_sameRand, heff.of_not_sameRun, heff.sameHost⟩

end Sys2Proof.Machine
end

section
/-! PROOF. What instructions do not read: the timers, the keys and the random port, which the host supplies. -/

namespace Sys2Proof.Machine

/-! ## RET and CALL, an equation per case -/

theorem execRet_of_empty {s : State} (h : s.sp.val = 0) :
    execRet s = .next (raiseFault (.stackUnderflow s.pc) s) := by
  rw [execRet, popReturn_of_empty (s := advance s) h]

theorem execRet_of_pos {s : State} (h : 0 < s.sp.val) :
    execRet s = .next { s with pc := s.stack[s.sp.val - 1]'(by omega), sp := ⟨s.sp.val - 1, by omega⟩ } := by
  rw [execRet, popReturn_of_pos (s := advance s) h]
  rfl

theorem execCall_of_full (nnn : Addr12) {s : State} (h : s.sp.val = 16) :
    execCall nnn s = .next (raiseFault (.stackOverflow s.pc) s) := by
  rw [execCall, pushReturn_of_full (s := advance s) _ h]

theorem execCall_of_lt (nnn : Addr12) {s : State} (h : s.sp.val < 16) :
    execCall nnn s =
      .next { s with
        pc := zextAddr nnn, stack := s.stack.set s.sp.val (s.pc + 2) h, sp := ⟨s.sp.val + 1, by omega⟩ } := by
  rw [execCall, pushReturn_of_lt (s := advance s) _ h]
  rfl

/-! ## Any instruction -/

/-- `s` with the timers, the key mask and the random port changed by the given functions. -/
def mapInputs (dt st : Byte → Byte) (keys : Word → Word) (queue : List Byte → List Byte) (drawn : Nat → Nat)
    (s : State) : State :=
  { s with
    dt := dt s.dt, st := st s.st, keys := keys s.keys, randQueue := queue s.randQueue
    randDrawn := drawn s.randDrawn }

/-- An instruction commutes with any change of the host's inputs that leaves alone those it reads: the keys for EX9E
and EXA1, the random port for CXNN. -/
theorem exec_mapInputs (dt st : Byte → Byte) (keys : Word → Word) (queue : List Byte → List Byte)
    (drawn : Nat → Nat) (i : Instr) (s : State)
    (hkeys : ((∀ x, i ≠ .skp x) ∧ ∀ x, i ≠ .sknp x) ∨ keys = id)
    (hrand : (∀ x nn, i ≠ .rnd x nn) ∨ (queue = id ∧ drawn = id)) :
    exec i (mapInputs dt st keys queue drawn s) = mapNext (mapInputs dt st keys queue drawn) (exec i s) := by
  cases i with
  | skp x =>
    rcases hkeys with ⟨h, _⟩ | rfl
    · exact absurd rfl (h x)
    · rfl
  | sknp x =>
    rcases hkeys with ⟨_, h⟩ | rfl
    · exact absurd rfl (h x)
    · rfl
  | rnd x nn =>
    rcases hrand with h | ⟨rfl, rfl⟩
    · exact absurd rfl (h x nn)
    · rfl
  | ret =>
    show execRet _ = mapNext _ (execRet s)
    rcases Nat.eq_zero_or_pos s.sp.val with h | h
    · rw [execRet_of_empty h, execRet_of_empty (s := mapInputs _ _ _ _ _ s) h]
      rfl
    · rw [execRet_of_pos h, execRet_of_pos (s := mapInputs _ _ _ _ _ s) h]
      rfl
  | call nnn =>
    show execCall nnn _ = mapNext _ (execCall nnn s)
    rcases Nat.lt_or_eq_of_le (Nat.le_of_lt_succ s.sp.isLt) with h | h
    · rw [execCall_of_lt nnn h, execCall_of_lt nnn (s := mapInputs _ _ _ _ _ s) h]
      rfl
    · rw [execCall_of_full nnn h, execCall_of_full nnn (s := mapInputs _ _ _ _ _ s) h]
      rfl
  | drw x y n =>
    show execDrw x y n _ = mapNext _ (execDrw x y n s)
    rw [execDrw, execDrw, apply_ite (mapNext _)]
    rfl
  | storeRegs x =>
    show execStoreRegs x _ = mapNext _ (execStoreRegs x s)
    rw [execStoreRegs, execStoreRegs, apply_ite (mapNext _)]
    rfl
  | loadRegs x =>
    show execLoadRegs x _ = mapNext _ (execLoadRegs x s)
    rw [execLoadRegs, execLoadRegs, apply_ite (mapNext _)]
    rfl
  | _ => rfl

/-- Settles O43: no instruction is excepted, since the keys and the random port stay. -/
theorem timersAreNeverRead : Obligations.TimersAreNeverRead := by
  unfold Obligations.TimersAreNeverRead
  intro i s d e
  exact exec_mapInputs (fun _ => d) (fun _ => e) id id id i s (.inr rfl) (.inr ⟨rfl, rfl⟩)

/-- Settles O44. -/
theorem keysAreReadByKeySkipsOnly : Obligations.KeysAreReadByKeySkipsOnly := by
  unfold Obligations.KeysAreReadByKeySkipsOnly
  intro i s ks hskp hsknp
  exact exec_mapInputs id id (fun _ => ks) id id i s (.inl ⟨hskp, hsknp⟩) (.inr ⟨rfl, rfl⟩)

end Sys2Proof.Machine
end

section
/-! PROOF. Timers that are 0 stay 0 under every transaction. -/

namespace Sys2Proof.Machine

theorem timersZero_of_sameHost {s t : State} (h : SameHost s t) (hz : TimersZero s) : TimersZero t := by
  obtain ⟨hdt, hst, _, _⟩ := h
  exact ⟨hdt.trans hz.1, hst.trans hz.2⟩

theorem hostLoad_sameHost (rom : List Byte) (s : State) : SameHost s (hostLoad rom s) := by
  rw [hostLoad]
  split <;> exact ⟨rfl, rfl, rfl, rfl⟩

theorem hostHalt_sameHost (s : State) : SameHost s (hostHalt s) := by
  rw [hostHalt]
  split <;> exact ⟨rfl, rfl, rfl, rfl⟩

theorem hostResume_sameHost (s : State) : SameHost s (hostResume s) := by
  rw [hostResume]
  split <;> exact ⟨rfl, rfl, rfl, rfl⟩

/-- The step transaction leaves what the host writes as `step` does, or changes nothing. -/
theorem hostStep_sameHost (s : State) : SameHost s (hostStep s).1 := by
  rw [hostStep]
  split
  · next h => exact step_sameHost h
  · exact ⟨rfl, rfl, rfl, rfl⟩
  · exact ⟨rfl, rfl, rfl, rfl⟩

theorem perform_keeps_timersZero (tr : Transaction) {s : State} (hz : TimersZero s) :
    TimersZero (perform tr s).1 := by
  cases tr with
  | reset => exact ⟨rfl, rfl⟩
  | load rom => exact timersZero_of_sameHost (hostLoad_sameHost rom s) hz
  | step => exact timersZero_of_sameHost (hostStep_sameHost s) hz
  | halt => exact timersZero_of_sameHost (hostHalt_sameHost s) hz
  | resume => exact timersZero_of_sameHost (hostResume_sameHost s) hz
  | tickTimers => exact ⟨congrArg tick hz.1, congrArg tick hz.2⟩
  | readFramebuffer | setKeys _ | getTimers | rand _ | inspect => exact hz

/-- Settles O54: a refused transaction changes nothing. -/
theorem timersStayZero : Obligations.TimersStayZero := by
  unfold Obligations.TimersStayZero
  intro tr s hz
  rcases transact_cases tr s with ⟨_, e⟩ | ⟨_, e⟩ <;> rw [e]
  · exact perform_keeps_timersZero tr hz
  · exact hz

end Sys2Proof.Machine
end

section
/-! PROOF. A step executes what the bytes at PC decode to. -/

namespace Sys2Proof.Machine

theorem fetchInstr_of_decodeWord {s : State} {i : Instr} (hp : s.pc.toNat + 1 < s.cfg.memSize)
    (h : decodeWord (wordOfBytes (memRead s.mem s.pc.toNat) (memRead s.mem (s.pc.toNat + 1))) = .ok i) :
    fetchInstr s = .ok i := by
  rw [fetchInstr, fetchWord_of_lt hp]
  simp only [h]

/-- Settles O6. -/
theorem stepRunsTheDecodedInstruction : Obligations.StepRunsTheDecodedInstruction := by
  unfold Obligations.StepRunsTheDecodedInstruction
  intro s i hv hr hp hd
  exact step_of_fetchInstr_ok hv hr (fetchInstr_of_decodeWord hp ((decode_pair_iff _ _ i).mp hd))

end Sys2Proof.Machine
end

section
/-! PROOF. The reset state meets the invariants (10_state.md R38). -/

namespace Sys2Proof.Machine

theorem default_valid : Config.default.Valid := by decide

theorem memoryInv_resetWith (c : Config) : MemoryInv (State.resetWith c) := ⟨nil_wf, by simp⟩

/-- PROG_ORIGIN, where PC stands, lies below MEM_SIZE, and every slot is 0. -/
theorem pcBoundInv_resetWith {c : Config} (hc : c.Valid) : PcBoundInv (State.resetWith c) := by
  have hm := memSize_le hc
  obtain ⟨⟨hprog, hfb⟩, _⟩ := hc
  refine ⟨?_, fun k hk => ?_⟩
  · rw [resetWith_pc, BitVec.toNat_ofNat]
    omega
  · simp

theorem stateInv_resetWith {c : Config} (hc : c.Valid) : StateInv (State.resetWith c) :=
  ⟨hc, memoryInv_resetWith c, faultRecordInv_of_running rfl rfl, pcBoundInv_resetWith hc⟩

/-- Settles O51. -/
theorem resetMeetsInv : Obligations.ResetMeetsInv := by
  unfold Obligations.ResetMeetsInv
  exact ⟨fun _ => stateInv_resetWith, stateInv_resetWith default_valid⟩

end Sys2Proof.Machine
end

section
/-! PROOF. Every step keeps memory canonical and inside the address space (20_memory.md R50, R61): of the instructions
only CLS, DXYN and FX55 write memory, the first two through the framebuffer region, the last behind its own check. -/

namespace Sys2Proof.Machine

variable {s t : State}

theorem memoryInv_of_same (hm : t.mem = s.mem) (hc : t.cfg = s.cfg) (hinv : MemoryInv s) : MemoryInv t := by
  rw [MemoryInv, hm, hc]
  exact hinv

/-- A run of bytes stored inside memory keeps the invariant. -/
theorem memoryInv_storeBytes (hinv : MemoryInv s) {a : Nat} {bs : List Byte} (ha : a + bs.length ≤ s.cfg.memSize)
    (hm : t.mem = storeBytes s.mem a bs) (hc : t.cfg = s.cfg) : MemoryInv t := by
  obtain ⟨hwf, hlt⟩ := hinv
  rw [MemoryInv, hm, hc]
  exact ⟨storeBytes_wf hwf a bs, storeBytes_lt hlt a bs ha⟩

theorem memoryInv_clearFramebuffer (hv : s.cfg.Valid) (hinv : MemoryInv s) : MemoryInv (clearFramebuffer s) := by
  obtain ⟨⟨_, hfb⟩, _⟩ := hv
  refine memoryInv_storeBytes hinv ?_ (clearFramebuffer_mem s) (clearFramebuffer_cfg s)
  rw [List.length_replicate]
  omega

/-- What DXYN draws lies in the framebuffer, hence in memory. -/
theorem memoryInv_blit_drawnPixels (hv : s.cfg.Valid) (hinv : MemoryInv s) {x y n : Nibble}
    (hm : t.mem = (blit s.cfg (drawnPixels s x y n) s.mem false).1) (hc : t.cfg = s.cfg) : MemoryInv t := by
  obtain ⟨hwf, hlt⟩ := hinv
  rw [MemoryInv, hm, hc]
  exact ⟨blit_wf _ hwf _, blit_lt hv _ (fun _ => drawnPixels_coords hv) hlt _⟩

/-- An instruction that changes memory is one of three, and each writes inside memory. -/
theorem exec_keeps_memoryInv {i : Instr} (hv : s.cfg.Valid) (hinv : MemoryInv s) (h : exec i s = .next t) :
    MemoryInv t := by
  have heff := execEffect_of_exec h
  obtain ⟨_, _, _, hcfg⟩ := heff.sameHost
  by_cases hm : t.mem = s.mem
  · exact memoryInv_of_same hm hcfg hinv
  rcases heff.of_mem_ne hm with rfl | ⟨x, y, n, rfl⟩ | ⟨x, rfl⟩
  · obtain rfl := Host.Outcome.next.inj h
    exact memoryInv_clearFramebuffer (s := advance s) hv hinv
  · rcases execDrw_cases x y n s with ⟨_, e⟩ | ⟨_, e⟩ <;> obtain rfl := Host.Outcome.next.inj (e.symm.trans h)
    · exact absurd rfl hm
    · exact memoryInv_blit_drawnPixels hv hinv rfl rfl
  · rcases execStoreRegs_cases x s with ⟨_, e⟩ | ⟨hin, e⟩ <;>
      obtain rfl := Host.Outcome.next.inj (e.symm.trans h)
    · exact absurd rfl hm
    · refine memoryInv_storeBytes hinv ?_ rfl rfl
      rw [length_regsUpTo]
      omega

/-- Settles O48: an idle or faulting step leaves memory alone, and a step that executes an instruction has a valid
configuration. -/
theorem stepKeepsMemoryInv : Obligations.StepKeepsMemoryInv := by
  unfold Obligations.StepKeepsMemoryInv
  intro s t hinv h
  rcases step_next_cases h with ⟨_, rfl⟩ | ⟨_, f, _, rfl⟩ | ⟨_, hv, _, i, e⟩
  · exact hinv
  · exact hinv
  · exact exec_keeps_memoryInv hv hinv e

end Sys2Proof.Machine
end

section
/-! PROOF. The layout of the framebuffer (20_memory.md R58): FB_WIDTH is a multiple of 8, so a row is a whole number of
bytes. -/

namespace Sys2Proof.Machine

theorem eight_dvd_fbWidth {c : Config} (hv : c.Valid) : 8 ∣ c.fbWidth := by
  obtain ⟨_, _, _, _, hw, _⟩ := hv
  exact Nat.dvd_of_mod_eq_zero hw

theorem pixelNumber_div_eight {c : Config} (hv : c.Valid) (x y : Nat) :
    pixelNumber c x y / 8 = y * (c.fbWidth / 8) + x / 8 := by
  obtain ⟨w, hw⟩ := eight_dvd_fbWidth hv
  rw [pixelNumber, hw, Nat.mul_left_comm, Nat.mul_add_div (by decide), Nat.mul_div_cancel_left w (by decide)]

theorem pixelNumber_mod_eight {c : Config} (hv : c.Valid) (x y : Nat) : pixelNumber c x y % 8 = x % 8 := by
  obtain ⟨w, hw⟩ := eight_dvd_fbWidth hv
  rw [pixelNumber, hw, Nat.mul_left_comm, Nat.mul_add_mod]

/-- Settles O36: equal places have equal pixel numbers, and these determine the pixel. -/
theorem pixelTranslatorIsOneToOne : Obligations.PixelTranslatorIsOneToOne := by
  unfold Obligations.PixelTranslatorIsOneToOne
  intro c x y x' y' hv hx hy hx' _
  refine ⟨?_, ?_, fbAddr_ge c x y, fbAddr_lt hv hx hy, fbBit_lt c x y, fun ha hb => ?_⟩
  · rw [fbAddr, pixelNumber_div_eight hv]
  · rw [fbBit, pixelNumber_mod_eight hv]
  · exact pixelNumber_inj hx hx' ((same_place_iff c x y x' y').mp ⟨ha, hb⟩)

end Sys2Proof.Machine
end

section
/-! PROOF. Fetching reads memory as it is now (20_memory.md R51, R52, R64): what FX55 stored is what the next step
decodes, and outside memory the fetch faults. -/

namespace Sys2Proof.Machine

/-- What FX55 stores at I + k is V[k] (44_index_memory_transfer.md R161). -/
theorem memRead_storeBytes_regsUpTo (m : Memory) (a : Nat) (s : State) {x k : Nibble} (hk : k.toNat ≤ x.toNat) :
    memRead (storeBytes m a (regsUpTo s x)) (a + k.toNat) = getReg s k := by
  rw [memRead_storeBytes_inside (by rw [length_regsUpTo]; omega), getD_regsUpTo s x k hk]

theorem exec_storeRegs_of_lt {x : Nibble} {s : State} (h : s.i.toNat + x.toNat < s.cfg.memSize) :
    exec (.storeRegs x) s = .next { s with pc := s.pc + 2, mem := storeBytes s.mem s.i.toNat (regsUpTo s x) } := by
  rcases execStoreRegs_cases x s with ⟨hout, _⟩ | ⟨_, e⟩
  · omega
  · exact e

/-- Settles O41: the two bytes at the new PC are V[k] and V[k + 1], so the next step runs what they decode to. -/
theorem storeIsSeenByNextFetch : Obligations.StoreIsSeenByNextFetch := by
  unfold Obligations.StoreIsSeenByNextFetch
  intro x s t k k' j hv hr hin h hk' hkx hpc hd
  obtain rfl := Host.Outcome.next.inj ((exec_storeRegs_of_lt hin).symm.trans h)
  refine stepRunsTheDecodedInstruction _ j hv hr ?_ ?_
  · rw [hpc]
    show s.i.toNat + k.toNat + 1 < s.cfg.memSize
    omega
  · rw [hpc, Nat.add_assoc, ← hk', memRead_storeBytes_regsUpTo _ _ _ (by omega),
      memRead_storeBytes_regsUpTo _ _ _ hkx, hd]

theorem fetchInstr_of_memSize_le_pc {s : State} (h : s.cfg.memSize ≤ s.pc.toNat) :
    fetchInstr s = .error (.outOfBoundsFetch s.pc s.pc.toNat) := by
  rw [fetchInstr, fetchWord, fetchByte_of_ge h]

theorem fetchInstr_of_pc_last {s : State} (h : s.pc.toNat + 1 = s.cfg.memSize) :
    fetchInstr s = .error (.outOfBoundsFetch s.pc (s.pc.toNat + 1)) := by
  rw [fetchInstr, fetchWord, fetchByte_of_lt (by omega), fetchByte_of_ge (by omega)]

/-- Settles O7: the fault of the fetch, which the step raises. -/
theorem fetchOutsideMemoryFaults : Obligations.FetchOutsideMemoryFaults := by
  unfold Obligations.FetchOutsideMemoryFaults
  intro s hv hr
  constructor
  · intro h
    rw [step_of_fetchInstr_error hv hr (fetchInstr_of_memSize_le_pc h), raiseFault_eq]
  · intro h
    rw [step_of_fetchInstr_error hv hr (fetchInstr_of_pc_last h), raiseFault_eq]

end Sys2Proof.Machine
end

section
/-! PROOF. The decoder and the encoder agree (30_encoding.md R81 to R91). What the decoder answers for a word is said
once, in `decodeWord_sound`: an instruction whose word it is, or the refusal of a word of R88's list. -/

namespace Sys2Proof

/-! ## A word of a known class is made of its class and its operands -/

section
variable {w : Word} {c : Nibble}

theorem wordCNNN_of_class (hc : (fieldC w).toNat = c.toNat) : wordCNNN c (fieldNNN w) = w := by
  rw [← BitVec.eq_of_toNat_eq hc, wordCNNN_fields]

theorem wordCXNN_of_class (hc : (fieldC w).toNat = c.toNat) {b : Byte} (hb : fieldNN w = b) :
    wordCXNN c (fieldX w) b = w := by
  rw [← BitVec.eq_of_toNat_eq hc, ← hb, wordCXNN_fields]

theorem wordCXYN_of_class (hc : (fieldC w).toNat = c.toNat) {n : Nibble} (hn : (fieldN w).toNat = n.toNat) :
    wordCXYN c (fieldX w) (fieldY w) n = w := by
  rw [← BitVec.eq_of_toNat_eq hc, ← BitVec.eq_of_toNat_eq hn, wordCXYN_fields]

end

/-! ## What the decoder answers -/

/-- The list of illegal words of 30_encoding.md R88. -/
abbrev IllegalWord (w : Word) : Prop :=
  (fieldC w = 8 ∧ (fieldN w = 8 ∨ fieldN w = 9 ∨ fieldN w = 0xA ∨ fieldN w = 0xB ∨ fieldN w = 0xC
      ∨ fieldN w = 0xD ∨ fieldN w = 0xF))
    ∨ (fieldC w = 0xE ∧ fieldNN w ≠ 0x9E ∧ fieldNN w ≠ 0xA1)
    ∨ (fieldC w = 0xF ∧ fieldNN w ≠ 0x1E ∧ fieldNN w ≠ 0x55 ∧ fieldNN w ≠ 0x65)

/-- An answer that is right for `w`: a well-formed instruction whose word is `w`, or the refusal of an illegal `w`. -/
def SoundAnswer (w : Word) : Except DecodeReject Instr → Prop
  | .ok i => encode i = w ∧ i.wellFormed = true
  | .error e => e = .unrecognized w ∧ IllegalWord w

theorem decodeClass0_sound {w : Word} (hc : (fieldC w).toNat = 0) : SoundAnswer w (.ok (decodeClass0 w)) := by
  unfold decodeClass0
  split
  · next h => exact ⟨h.symm, rfl⟩
  · next hcls =>
    split
    · next h => exact ⟨h.symm, rfl⟩
    · next hret =>
      have hw : wordCNNN 0x0 (fieldNNN w) = w := wordCNNN_of_class hc
      refine ⟨hw, ?_⟩
      have h0 : fieldNNN w ≠ 0x0E0 := fun h => hcls (by rw [← hw, h]; rfl)
      have h1 : fieldNNN w ≠ 0x0EE := fun h => hret (by rw [← hw, h]; rfl)
      simpa [Instr.wellFormed] using ⟨h0, h1⟩

theorem decodeClass8_sound {w : Word} (hc : (fieldC w).toNat = 8) : SoundAnswer w (decodeClass8 w) := by
  unfold decodeClass8
  split
  case h_10 =>
    refine ⟨rfl, .inl ⟨BitVec.eq_of_toNat_eq hc, ?_⟩⟩
    simp only [imp_false] at *
    bv_omega
  all_goals next hn => exact ⟨wordCXYN_of_class hc hn, rfl⟩

theorem decodeClassE_sound {w : Word} (hc : (fieldC w).toNat = 0xE) : SoundAnswer w (decodeClassE w) := by
  unfold decodeClassE
  split
  · next hb => exact ⟨wordCXNN_of_class hc hb, rfl⟩
  · next h9E =>
    split
    · next hb => exact ⟨wordCXNN_of_class hc hb, rfl⟩
    · next hA1 => exact ⟨rfl, .inr (.inl ⟨BitVec.eq_of_toNat_eq hc, h9E, hA1⟩)⟩

theorem decodeClassF_sound {w : Word} (hc : (fieldC w).toNat = 0xF) : SoundAnswer w (decodeClassF w) := by
  unfold decodeClassF
  split
  · next hb => exact ⟨wordCXNN_of_class hc hb, rfl⟩
  · next h1E =>
    split
    · next hb => exact ⟨wordCXNN_of_class hc hb, rfl⟩
    · next h55 =>
      split
      · next hb => exact ⟨wordCXNN_of_class hc hb, rfl⟩
      · next h65 => exact ⟨rfl, .inr (.inr ⟨BitVec.eq_of_toNat_eq hc, h1E, h55, h65⟩)⟩

theorem decodeWord_sound (w : Word) : SoundAnswer w (decodeWord w) := by
  unfold decodeWord
  split
  · next hc => exact decodeClass0_sound hc
  · next hc => exact ⟨wordCNNN_of_class hc, rfl⟩
  · next hc => exact ⟨wordCNNN_of_class hc, rfl⟩
  · next hc => exact ⟨wordCXNN_of_class hc rfl, rfl⟩
  · next hc => exact ⟨wordCXNN_of_class hc rfl, rfl⟩
  · next hc => exact ⟨wordCXYN_of_class hc rfl, rfl⟩
  · next hc => exact ⟨wordCXNN_of_class hc rfl, rfl⟩
  · next hc => exact ⟨wordCXNN_of_class hc rfl, rfl⟩
  · next hc => exact decodeClass8_sound hc
  · next hc => exact ⟨wordCXYN_of_class hc rfl, rfl⟩
  · next hc => exact ⟨wordCNNN_of_class hc, rfl⟩
  · next hc => exact ⟨wordCNNN_of_class hc, rfl⟩
  · next hc => exact ⟨wordCXNN_of_class hc rfl, rfl⟩
  · next hc => exact ⟨wordCXYN_of_class hc rfl, rfl⟩
  · next hc => exact decodeClassE_sound hc
  · refine decodeClassF_sound ?_
    simp only [imp_false] at *
    bv_omega

theorem encode_of_decodeWord {w : Word} {i : Instr} (h : decodeWord w = .ok i) :
    encode i = w ∧ i.wellFormed = true := by
  have hs := decodeWord_sound w
  rwa [h] at hs

theorem illegalWord_of_decodeWord {w : Word} {e : DecodeReject} (h : decodeWord w = .error e) :
    e = .unrecognized w ∧ IllegalWord w := by
  have hs := decodeWord_sound w
  rwa [h] at hs

/-- Settles O2. -/
theorem encodeOfDecode : Obligations.EncodeOfDecode := by
  unfold Obligations.EncodeOfDecode
  exact fun _ _ => encode_of_decodeWord

/-! ## Decoding the word of an instruction -/

/-- SYS shares class 0 with CLS and RET, whose two addresses it does not take when well formed (R85, R91). -/
theorem decodeClass0_wordCNNN {nnn : Addr12} (h0 : nnn ≠ 0x0E0) (h1 : nnn ≠ 0x0EE) :
    decodeClass0 (wordCNNN 0x0 nnn) = .sys nnn := by
  have hcls : wordCNNN 0x0 nnn ≠ 0x00E0 := fun h => h0 (by rw [← fieldNNN_wordCNNN 0x0 nnn, h]; rfl)
  have hret : wordCNNN 0x0 nnn ≠ 0x00EE := fun h => h1 (by rw [← fieldNNN_wordCNNN 0x0 nnn, h]; rfl)
  rw [decodeClass0, if_neg hcls, if_neg hret, fieldNNN_wordCNNN]

theorem decodeWord_encode {i : Instr} (h : i.wellFormed = true) : decodeWord (encode i) = .ok i := by
  cases i with
  | cls | ret => rfl
  | sys nnn =>
    simp only [Instr.wellFormed, Bool.and_eq_true, decide_eq_true_eq] at h
    obtain ⟨h0, h1⟩ := h
    rw [encode, decodeWord, fieldC_wordCNNN]
    exact congrArg Except.ok (decodeClass0_wordCNNN h0 h1)
  | ldReg | orReg | andReg | xorReg | addReg | subReg | shr | subnReg | shl =>
    simp [encode, decodeWord, decodeClass8]
  | skp | sknp => simp [encode, decodeWord, decodeClassE]
  | addI | storeRegs | loadRegs => simp [encode, decodeWord, decodeClassF]
  | _ => simp [encode, decodeWord]

/-- Settles O1: the two bytes make the word again, and the word decodes to the instruction. -/
theorem decodeOfEncode : Obligations.DecodeOfEncode := by
  unfold Obligations.DecodeOfEncode
  intro i rest h
  rw [encodeBytes, decode_bytesOfWord, decodeWord_encode h]

/-! ## The illegal words -/

theorem not_illegalWord_encode (i : Instr) : ¬ IllegalWord (encode i) := by
  cases i with
  | cls | ret => decide
  | _ => simp [IllegalWord, encode]

/-- Settles O3: a word is either illegal and refused or the word of an instruction, and no such word is illegal. -/
theorem illegalWordsExactly : Obligations.IllegalWordsExactly := by
  unfold Obligations.IllegalWordsExactly
  intro w
  refine ⟨fun h => (illegalWord_of_decodeWord h).2, fun hill => ?_⟩
  cases hd : decodeWord w with
  | ok i => exact absurd ((encode_of_decodeWord hd).1 ▸ hill) (not_illegalWord_encode i)
  | error e => rw [(illegalWord_of_decodeWord hd).1]

/-- Settles O5: fifteen evaluations of the decoder. -/
theorem specWordsDecode : Obligations.SpecWordsDecode := by
  unfold Obligations.SpecWordsDecode
  exact ⟨rfl, rfl, rfl, rfl, rfl, rfl, rfl, rfl, rfl, rfl, rfl, rfl, rfl, rfl, rfl⟩

end Sys2Proof
end

section
/-! PROOF. The decoder follows the opcode table (30_encoding.md R83, R84, R88). That the 29 rows overlap only as R83
allows, and that none of them takes an illegal word, are facts about the rows alone. -/

namespace Sys2Proof

section
variable {w : Word} {q r : OpRow}

/-- Two rows that a word both matches agree on the bits that both their masks keep. -/
theorem patterns_agree_of_matches (hq : w &&& q.mask = q.pattern) (hr : w &&& r.mask = r.pattern) :
    q.pattern &&& r.mask = r.pattern &&& q.mask := by
  rw [← hq, ← hr, BitVec.and_assoc, BitVec.and_assoc, BitVec.and_comm q.mask]

/-- A field that the mask keeps whole is the pattern's in every word that matches. -/
theorem extractLsb'_eq_of_matches (h : w &&& q.mask = q.pattern) {start len : Nat}
    (hm : q.mask.extractLsb' start len = BitVec.allOnes len) :
    w.extractLsb' start len = q.pattern.extractLsb' start len := by
  rw [← h, BitVec.extractLsb'_and, hm, BitVec.and_allOnes]

/-- Two rows overlap only where one mask is larger, and the larger one is then the full mask. -/
theorem opcodeRows_overlap : ∀ q ∈ opcodeRows, ∀ r ∈ opcodeRows, q.pattern &&& r.mask = r.pattern &&& q.mask →
    q = r ∨ q.mask.toNat < r.mask.toNat ∨ q.mask = 0xFFFF := by
  decide

theorem opcodeRows_fullMask : ∀ q ∈ opcodeRows, q.mask = 0xFFFF →
    q = ⟨"CLS", 0xFFFF, 0x00E0⟩ ∨ q = ⟨"RET", 0xFFFF, 0x00EE⟩ := by
  decide

/-- A word that matches a row with the full mask decodes to the instruction of that row, CLS or RET (R85). -/
theorem decodeWord_of_fullMask (hq : q ∈ opcodeRows) (hm : q.mask = 0xFFFF) (h : w &&& q.mask = q.pattern) :
    ∃ i, decodeWord w = .ok i ∧ opcodeRows[i.rowNumber]? = some q := by
  rw [hm, and_FFFF] at h
  rcases opcodeRows_fullMask q hq hm with rfl | rfl
  · exact ⟨.cls, by rw [h]; rfl, rfl⟩
  · exact ⟨.ret, by rw [h]; rfl, rfl⟩

/-- A row's mask keeps the class and the field that R88 looks at in that class, and no row's pattern is illegal. -/
theorem opcodeRows_keep_illegalWord : ∀ q ∈ opcodeRows,
    fieldC q.mask = 0xF ∧ (fieldC q.pattern = 8 → fieldN q.mask = 0xF)
      ∧ (fieldC q.pattern = 0xE ∨ fieldC q.pattern = 0xF → fieldNN q.mask = 0xFF) ∧ ¬ IllegalWord q.pattern := by
  decide

/-- An illegal word that matched a row would make the row's pattern illegal. -/
theorem not_illegalWord_of_matches (hq : q ∈ opcodeRows) (h : w &&& q.mask = q.pattern) : ¬ IllegalWord w := by
  obtain ⟨hC, hN, hNN, hpat⟩ := opcodeRows_keep_illegalWord q hq
  have hc : fieldC w = fieldC q.pattern := extractLsb'_eq_of_matches h hC
  intro hill
  unfold IllegalWord at hill
  rw [hc] at hill
  rcases hill with ⟨h8, hn⟩ | ⟨hE, hnn⟩ | ⟨hF, hnn⟩
  · have hf : fieldN w = fieldN q.pattern := extractLsb'_eq_of_matches h (hN h8)
    exact hpat (.inl ⟨h8, hf ▸ hn⟩)
  · have hf : fieldNN w = fieldNN q.pattern := extractLsb'_eq_of_matches h (hNN (.inl hE))
    exact hpat (.inr (.inl ⟨hE, hf ▸ hnn⟩))
  · have hf : fieldNN w = fieldNN q.pattern := extractLsb'_eq_of_matches h (hNN (.inr hF))
    exact hpat (.inr (.inr ⟨hF, hf ▸ hnn⟩))

end

open Laws.MatchesRow in
/-- The word of every instruction matches the row that the instruction stands for (R83, R84). -/
theorem encode_matches_row : ∀ i : Instr, Statement i
  | .cls => cls
  | .ret => ret
  | .sys nnn => sys nnn
  | .jp nnn => jp nnn
  | .call nnn => call nnn
  | .seImm x nn => seImm x nn
  | .sneImm x nn => sneImm x nn
  | .seReg x y n => seReg x y n
  | .ldImm x nn => ldImm x nn
  | .addImm x nn => addImm x nn
  | .ldReg x y => ldReg x y
  | .orReg x y => orReg x y
  | .andReg x y => andReg x y
  | .xorReg x y => xorReg x y
  | .addReg x y => addReg x y
  | .subReg x y => subReg x y
  | .shr x y => shr x y
  | .subnReg x y => subnReg x y
  | .shl x y => shl x y
  | .sneReg x y n => sneReg x y n
  | .ldI nnn => ldI nnn
  | .jpV0 nnn => jpV0 nnn
  | .rnd x nn => rnd x nn
  | .drw x y n => drw x y n
  | .skp x => skp x
  | .sknp x => sknp x
  | .addI x => addI x
  | .storeRegs x => storeRegs x
  | .loadRegs x => loadRegs x

/-- Settles O4: the row is the one that `encode i` matches. Another row with the full mask would make the word decode
to that row's instruction. -/
theorem decodeFollowsOpcodeTable : Obligations.DecodeFollowsOpcodeTable := by
  unfold Obligations.DecodeFollowsOpcodeTable
  intro w
  constructor
  · intro i hi
    obtain ⟨r, hr, hmr⟩ := encode_matches_row i
    rw [(encode_of_decodeWord hi).1] at hmr
    refine ⟨r, hr, hmr, fun q hq hmq => ?_⟩
    have hagree := patterns_agree_of_matches hmq hmr
    rcases opcodeRows_overlap q hq r (List.mem_of_getElem? hr) hagree with heq | hlt | hfull
    · exact .inl heq
    · exact .inr hlt
    · obtain ⟨j, hj, hjq⟩ := decodeWord_of_fullMask hq hfull hmq
      obtain rfl : j = i := Except.ok.inj (hj.symm.trans hi)
      exact .inl (Option.some.inj (hjq.symm.trans hr))
  · intro e he
    obtain ⟨rfl, hill⟩ := illegalWord_of_decodeWord he
    exact ⟨rfl, fun q hq hm => not_illegalWord_of_matches hq hm hill⟩

end Sys2Proof
end

section
/-! PROOF. An illegal word at PC is the step's fault (30_encoding.md R88, 60_exceptions.md R178 to R180). -/

namespace Sys2Proof.Machine

theorem fetchInstr_of_decodeWord_error {s : State} {e : DecodeReject} (hp : s.pc.toNat + 1 < s.cfg.memSize)
    (h : decodeWord (wordOfBytes (memRead s.mem s.pc.toNat) (memRead s.mem (s.pc.toNat + 1))) = .error e) :
    fetchInstr s = .error (.unrecognizedInstruction s.pc
      (wordOfBytes (memRead s.mem s.pc.toNat) (memRead s.mem (s.pc.toNat + 1)))) := by
  rw [fetchInstr, fetchWord_of_lt hp]
  simp only [h]

/-- Settles O8: the fault of the fetch, which the step raises. -/
theorem illegalWordFaults : Obligations.IllegalWordFaults := by
  unfold Obligations.IllegalWordFaults
  rintro s w hv hr hp rfl hd
  rw [step_of_fetchInstr_error hv hr (fetchInstr_of_decodeWord_error hp hd), raiseFault_eq]

end Sys2Proof.Machine
end

section
/-! PROOF. Jumps and skips write PC and nothing else (40_control_flow.md R100, R102, R104 to R109). -/

namespace Sys2Proof.Machine

variable (s : State)

theorem writesOnlyPc_jumpTo_advance (a : Word) : WritesOnlyPc s (jumpTo a (advance s)) := writesOnlyPc_setPc a s

theorem writesOnlyPc_skipIf_advance (taken : Bool) : WritesOnlyPc s (skipIf taken (advance s)) :=
  writesOnlyPc_setPc _ s

/-- PC after a skip on inequality. -/
theorem skipIf_advance_pc_not (c : Prop) [Decidable c] :
    (skipIf (decide ¬c) (advance s)).pc = if c then s.pc + 2 else s.pc + 4 := by
  rw [skipIf_advance_pc, ite_not]

/-- The largest literal and the largest register together stay far below 65536 (10_state.md R41). -/
theorem toNat_zextAddr_add_zextByte (nnn : Addr12) (b : Byte) :
    (zextAddr nnn + zextByte b).toNat = nnn.toNat + b.toNat := by
  rw [BitVec.toNat_add, toNat_zextAddr, toNat_zextByte, Nat.mod_eq_of_lt (by omega)]

/-- Settles O22: both meanings jump to the literal. -/
theorem jumpsSetPcOnly : Obligations.JumpsSetPcOnly := by
  unfold Obligations.JumpsSetPcOnly
  intro nnn s
  exact ⟨⟨_, rfl, toNat_zextAddr nnn, writesOnlyPc_jumpTo_advance s _⟩,
    ⟨_, rfl, toNat_zextAddr nnn, writesOnlyPc_jumpTo_advance s _⟩⟩

/-- Settles O23: the sum does not wrap. -/
theorem jumpV0AddsWithoutTruncation : Obligations.JumpV0AddsWithoutTruncation := by
  unfold Obligations.JumpV0AddsWithoutTruncation
  intro nnn s
  exact ⟨_, rfl, toNat_zextAddr_add_zextByte nnn _, writesOnlyPc_jumpTo_advance s _⟩

/-- Settles O28. -/
theorem immediateSkips : Obligations.ImmediateSkips := by
  unfold Obligations.ImmediateSkips
  intro x nn s
  exact ⟨⟨_, rfl, skipIf_advance_pc _ s, writesOnlyPc_skipIf_advance s _⟩,
    ⟨_, rfl, skipIf_advance_pc_not s _, writesOnlyPc_skipIf_advance s _⟩⟩

/-- Settles O29: neither meaning reads N. -/
theorem registerSkips : Obligations.RegisterSkips := by
  unfold Obligations.RegisterSkips
  intro x y n s
  exact ⟨⟨_, rfl, skipIf_advance_pc _ s, writesOnlyPc_skipIf_advance s _⟩,
    ⟨_, rfl, skipIf_advance_pc_not s _, writesOnlyPc_skipIf_advance s _⟩⟩

end Sys2Proof.Machine
end

section
/-! PROOF. CALL and RET (40_control_flow.md R101, R103; 10_state.md R29): alone, on a full or an empty stack, and one
after the other. -/

namespace Sys2Proof.Machine

variable {s : State}

/-- The frame that CALL and RET share: neither touches more than PC and the call stack. -/
theorem sameButPcAndStack_of_eq {s t : State} {a : Word} {slots : Vector Word 16} {n : Fin 17}
    (h : t = { s with pc := a, stack := slots, sp := n }) :
    SameRegs s t ∧ t.i = s.i ∧ SameMem s t ∧ SameRest s t := by
  subst h
  exact ⟨fun _ => rfl, rfl, fun _ => rfl, ⟨rfl, rfl⟩, ⟨rfl, rfl, rfl, rfl⟩, rfl, rfl⟩

/-- Settles O24: CALL sets one slot, the one at the old SP. -/
theorem callPushesReturnAddress : Obligations.CallPushesReturnAddress := by
  unfold Obligations.CallPushesReturnAddress
  intro nnn s h
  refine ⟨_, execCall_of_lt nnn h, toNat_zextAddr nnn, rfl, ?_, fun k hk => ?_, sameButPcAndStack_of_eq rfl⟩
  · exact Vector.getElem?_set_self h
  · exact Vector.getElem?_set_ne h hk.symm

/-- Settles O25: RET takes PC from the slot below SP and writes no slot. -/
theorem returnPopsIntoPc : Obligations.ReturnPopsIntoPc := by
  unfold Obligations.ReturnPopsIntoPc
  intro s h
  exact ⟨_, execRet_of_pos h, Vector.getElem?_eq_getElem _, Nat.sub_add_cancel h, rfl,
    sameButPcAndStack_of_eq rfl⟩

/-- Settles O26. -/
theorem stackFaultsChangeNothingElse : Obligations.StackFaultsChangeNothingElse := by
  unfold Obligations.StackFaultsChangeNothingElse
  exact ⟨fun nnn _ h => execCall_of_full nnn h, fun _ h => execRet_of_empty h⟩

/-- A step of a RUNNING core executes the well-formed instruction whose word stands at PC (10_state.md R25). -/
theorem step_of_encode {i : Instr} (hi : i.wellFormed = true) (hv : s.cfg.Valid) (hr : s.run = .running)
    (hp : s.pc.toNat + 1 < s.cfg.memSize)
    (h : wordOfBytes (memRead s.mem s.pc.toNat) (memRead s.mem (s.pc.toNat + 1)) = encode i) :
    step s = exec i s :=
  step_of_fetchInstr_ok hv hr (fetchInstr_of_decodeWord hp (by rw [h, decodeWord_encode hi]))

/-- The state after CALL NNN with room on the stack. -/
def afterCall (nnn : Addr12) (s : State) (h : s.sp.val < 16) : State :=
  { s with pc := zextAddr nnn, stack := s.stack.set s.sp.val (s.pc + 2) h, sp := ⟨s.sp.val + 1, by omega⟩ }

theorem exec_call_of_lt (nnn : Addr12) (h : s.sp.val < 16) :
    exec (.call nnn) s = .next (afterCall nnn s h) := execCall_of_lt nnn h

/-- RET undoes what CALL did to SP and goes to the address CALL pushed; the pushed slot stays. -/
theorem exec_ret_afterCall (nnn : Addr12) (h : s.sp.val < 16) :
    exec .ret (afterCall nnn s h) =
      .next { s with pc := s.pc + 2, stack := s.stack.set s.sp.val (s.pc + 2) h } := by
  have hslot : (s.stack.set s.sp.val (s.pc + 2) h)[s.sp.val] = s.pc + 2 := Vector.getElem_set_self h
  have hret := execRet_of_pos (s := afterCall nnn s h) (Nat.succ_pos _)
  simp only [afterCall, Nat.add_sub_cancel, hslot] at hret
  exact hret

/-- Settles O27: the CALL's step leaves configuration, RUN and memory alone, so the second step fetches the RET at
NNN. -/
theorem callThenReturnComesBack : Obligations.CallThenReturnComesBack := by
  unfold Obligations.CallThenReturnComesBack
  intro s nnn hv hr hsp hp hn hcall hret
  have hpc : (afterCall nnn s hsp).pc.toNat = nnn.toNat := toNat_zextAddr nnn
  have hstep₁ : step s = .next (afterCall nnn s hsp) :=
    (step_of_encode rfl hv hr hp hcall).trans (exec_call_of_lt nnn hsp)
  have hstep₂ : step (afterCall nnn s hsp) = exec .ret (afterCall nnn s hsp) :=
    step_of_encode rfl hv hr (by rw [hpc]; exact hn) (by rw [hpc]; exact hret)
  exact ⟨_, _, hstep₁, hstep₂.trans (exec_ret_afterCall nnn hsp), hpc, rfl, rfl,
    sameButPcAndStack_of_eq rfl⟩

end Sys2Proof.Machine
end

section
/-! PROOF. Immediate loads and adds, the index register, random (41_immediate_index_random.md R120 to R125): each
writes one destination, CXNN alone asks the random port. -/

namespace Sys2Proof.Machine

variable (s : State)

/-! ## The destination and the frame of each write -/

theorem getReg_setReg_same (x : Nibble) (b : Byte) : getReg (setReg x b s) x = b := by
  rw [getReg_setReg, if_pos rfl]

/-- The frame of an instruction whose destination is I: nothing but I and PC changes. -/
theorem setIndex_advance_frame (a : Word) :
    (setIndex a (advance s)).pc = s.pc + 2 ∧ SameRegs s (setIndex a (advance s))
      ∧ SameMem s (setIndex a (advance s)) ∧ SameStack s (setIndex a (advance s))
      ∧ SameRest s (setIndex a (advance s)) :=
  ⟨rfl, fun _ => rfl, fun _ => rfl, ⟨rfl, rfl⟩, ⟨rfl, rfl⟩, ⟨rfl, rfl, rfl, rfl⟩, rfl, rfl⟩

theorem sameRegsBut_setReg_dropRandByte_advance (x : Nibble) (b : Byte) :
    SameRegsBut (fun k => k = x) s (setReg x b (dropRandByte (advance s))) := fun k hk => by
  rw [getReg_setReg, if_neg hk, getReg_dropRandByte, getReg_advance]

/-! ## The byte the random port delivers -/

theorem nextRandByte_of_cons {s : State} {b : Byte} {rest : List Byte} (h : s.randQueue = b :: rest) :
    nextRandByte s = b := by
  rw [nextRandByte, h, List.head?_cons, Option.getD_some]

theorem nextRandByte_of_nil {s : State} (h : s.randQueue = []) :
    nextRandByte s = Config.freeRandByte s.randDrawn := by
  rw [nextRandByte, h, List.head?_nil, Option.getD_none]

/-! ## The obligations -/

/-- Settles O45: the port is one of the host's inputs, and only CXNN reads it. -/
theorem randomPortIsAskedByRndOnly : Obligations.RandomPortIsAskedByRndOnly := by
  unfold Obligations.RandomPortIsAskedByRndOnly
  intro i s q n hrnd
  exact exec_mapInputs id id id (fun _ => q) (fun _ => n) i s (.inr rfl) (.inl hrnd)

/-- Settles O12. -/
theorem loadImmediateSetsOneRegister : Obligations.LoadImmediateSetsOneRegister := by
  unfold Obligations.LoadImmediateSetsOneRegister
  intro x nn s
  exact ⟨_, rfl, getReg_setReg_same _ x nn, writesOnlyReg_setReg x nn s⟩

/-- Settles O13: addition of bytes is addition modulo 256, and the one register written is V[X]. -/
theorem addImmediateWrapsWithoutFlag : Obligations.AddImmediateWrapsWithoutFlag := by
  unfold Obligations.AddImmediateWrapsWithoutFlag
  intro x nn s
  refine ⟨_, rfl, ?_, writesOnlyReg_setReg x _ s⟩
  rw [getReg_setReg_same, BitVec.toNat_add]

/-- Settles O14: the literal is zero-extended. -/
theorem loadIndexSetsIndex : Obligations.LoadIndexSetsIndex := by
  unfold Obligations.LoadIndexSetsIndex
  intro nnn s
  exact ⟨_, rfl, toNat_zextAddr nnn, setIndex_advance_frame s _⟩

/-- Settles O15: addition of words is addition modulo 65536. -/
theorem addIndexWrapsWithoutFlag : Obligations.AddIndexWrapsWithoutFlag := by
  unfold Obligations.AddIndexWrapsWithoutFlag
  intro x s
  refine ⟨_, rfl, ?_, setIndex_advance_frame s _⟩
  rw [setIndex_i, BitVec.toNat_add, toNat_zextByte]

/-- Settles O16: the port's byte is the head of the queue or the free value, and the draw drops it. -/
theorem randomAndsOneDrawnByte : Obligations.RandomAndsOneDrawnByte := by
  unfold Obligations.RandomAndsOneDrawnByte
  intro x nn s
  have hreg := getReg_setReg_same (dropRandByte (advance s)) x (nn &&& nextRandByte s)
  refine ⟨_, rfl, hreg, fun b rest hq => ⟨?_, ?_⟩, fun hq => ⟨?_, ?_⟩, rfl, rfl,
    sameRegsBut_setReg_dropRandByte_advance s x _, rfl, fun _ => rfl, ⟨rfl, rfl⟩, ⟨rfl, rfl⟩, rfl, rfl, rfl, rfl⟩
  · rw [hreg, nextRandByte_of_cons hq]
  · rw [setReg_randQueue, dropRandByte_randQueue, advance_randQueue, hq, List.tail_cons]
  · rw [hreg, nextRandByte_of_nil hq]
  · rw [setReg_randQueue, dropRandByte_randQueue, advance_randQueue, hq, List.tail_nil]

end Sys2Proof.Machine
end

section
/-! PROOF. The ALU group (42_alu.md R130 to R139): four operations write V[X] alone, five write V[X] and then VF. -/

namespace Sys2Proof.Machine

/-! ## The two destinations of a flag-writing operation -/

theorem getReg_writeResultAndFlag_result {x : Nibble} (hx : x ≠ 15) (r : Byte) (f : Bool) (s : State) :
    getReg (writeResultAndFlag x r f s) x = r := by
  rw [getReg_writeResultAndFlag, if_neg hx, if_pos rfl]

/-- VF holds the flag for every X, 15 included (R131, D9). -/
theorem getReg_writeResultAndFlag_flag (x : Nibble) (r : Byte) (f : Bool) (s : State) :
    getReg (writeResultAndFlag x r f s) 15 = flagByte f := by
  rw [getReg_writeResultAndFlag, if_pos rfl]

/-! ## Flags and results as numbers -/

theorem flagByte_decide (c : Prop) [Decidable c] : flagByte (decide c) = if c then 1 else 0 := by
  simp only [flagByte, decide_eq_true_eq]

theorem flagByte_carryOut (a b : Byte) : flagByte (carryOut a b) = if 255 < a.toNat + b.toNat then 1 else 0 :=
  flagByte_decide _

theorem flagByte_greaterThan (a b : Byte) : flagByte (greaterThan a b) = if b.toNat < a.toNat then 1 else 0 :=
  flagByte_decide _

theorem toNat_sub_eq_int_emod (a b : Byte) : ((a - b).toNat : Int) = ((a.toNat : Int) - b.toNat) % 256 := by
  have := b.isLt
  rw [BitVec.toNat_sub]
  omega

theorem toNat_shiftRight_one (a : Byte) : (a >>> 1).toNat = a.toNat / 2 := by
  rw [BitVec.toNat_ushiftRight, Nat.shiftRight_eq_div_pow, Nat.pow_one]

theorem toNat_shiftLeft_one (a : Byte) : (a <<< 1).toNat = a.toNat * 2 % 256 := by
  rw [BitVec.toNat_shiftLeft, Nat.shiftLeft_eq, Nat.pow_one]

/-! ## The obligations -/

/-- Settles O17: the one register written is V[X], and the operators of bytes act bit by bit. -/
theorem copyAndBitwiseWriteOneRegister : Obligations.CopyAndBitwiseWriteOneRegister := by
  unfold Obligations.CopyAndBitwiseWriteOneRegister
  intro x y s
  refine ⟨⟨_, rfl, getReg_setReg_same _ x _, writesOnlyReg_setReg x _ s⟩,
    ⟨_, rfl, writesOnlyReg_setReg x _ s, fun k _ => ?or⟩, ⟨_, rfl, writesOnlyReg_setReg x _ s, fun k _ => ?and⟩,
    ⟨_, rfl, writesOnlyReg_setReg x _ s, fun k _ => ?xor⟩⟩
  case or => rw [getReg_setReg_same, BitVec.getLsbD_or]
  case and => rw [getReg_setReg_same, BitVec.getLsbD_and]
  case xor => rw [getReg_setReg_same, BitVec.getLsbD_xor]

/-- Settles O18: addition of bytes is addition modulo 256, and the carry is written last. -/
theorem addSetsCarry : Obligations.AddSetsCarry := by
  unfold Obligations.AddSetsCarry
  intro x y s
  refine ⟨_, rfl, fun hx => ?result, ?flag, writesOnlyRegAndFlag_writeResultAndFlag x _ _ s⟩
  case result => rw [getReg_writeResultAndFlag_result hx, BitVec.toNat_add]
  case flag => rw [getReg_writeResultAndFlag_flag, flagByte_carryOut]

/-- What SUB and SUBN share: the difference goes to V[X], then the strict test to VF. -/
theorem difference_and_strict_flag (x : Nibble) (a b : Byte) (s : State) :
    (x ≠ 15 → ((getReg (writeResultAndFlag x (a - b) (greaterThan a b) (advance s)) x).toNat : Int)
        = ((a.toNat : Int) - b.toNat) % 256)
      ∧ getReg (writeResultAndFlag x (a - b) (greaterThan a b) (advance s)) 15 = (if b.toNat < a.toNat then 1 else 0)
      ∧ WritesOnlyRegAndFlag x s (writeResultAndFlag x (a - b) (greaterThan a b) (advance s)) := by
  refine ⟨fun hx => ?result, ?flag, writesOnlyRegAndFlag_writeResultAndFlag x _ _ s⟩
  case result => rw [getReg_writeResultAndFlag_result hx, toNat_sub_eq_int_emod]
  case flag => rw [getReg_writeResultAndFlag_flag, flagByte_greaterThan]

/-- Settles O19: 8XY5 takes V[Y] from V[X], 8XY7 the other way round. -/
theorem subtractSetsStrictFlag : Obligations.SubtractSetsStrictFlag := by
  unfold Obligations.SubtractSetsStrictFlag
  intro x y s
  exact ⟨⟨_, rfl, difference_and_strict_flag x (getReg s x) (getReg s y) s⟩,
    ⟨_, rfl, difference_and_strict_flag x (getReg s y) (getReg s x) s⟩⟩

/-- Settles O20: the flag is bit 0 of the value before the shift. -/
theorem shiftRightKeepsOldLowBit : Obligations.ShiftRightKeepsOldLowBit := by
  unfold Obligations.ShiftRightKeepsOldLowBit
  intro x y s
  refine ⟨_, rfl, fun hx => ?result, ?flag, writesOnlyRegAndFlag_writeResultAndFlag x _ _ s⟩
  case result => rw [getReg_writeResultAndFlag_result hx, toNat_shiftRight_one]
  case flag => rw [getReg_writeResultAndFlag_flag, toNat_flagByte_lowBit]

/-- Settles O21: the flag is bit 7 of the value before the shift. -/
theorem shiftLeftKeepsOldHighBit : Obligations.ShiftLeftKeepsOldHighBit := by
  unfold Obligations.ShiftLeftKeepsOldHighBit
  intro x y s
  refine ⟨_, rfl, fun hx => ?result, ?flag, writesOnlyRegAndFlag_writeResultAndFlag x _ _ s⟩
  case result => rw [getReg_writeResultAndFlag_result hx, toNat_shiftLeft_one]
  case flag => rw [getReg_writeResultAndFlag_flag, toNat_flagByte_highBit]

end Sys2Proof.Machine
end

section
/-! PROOF. The key skips (43_display_keypad.md R152, R153) and CLS (R150). -/

namespace Sys2Proof.Machine

/-- Settles O30: the two meanings skip on `keyDown` and on its negation. -/
theorem keySkips : Obligations.KeySkips := by
  unfold Obligations.KeySkips
  intro x s
  refine ⟨⟨_, rfl, writesOnlyPc_skipIf_advance s _, ?skp⟩, ⟨_, rfl, writesOnlyPc_skipIf_advance s _, ?sknp⟩⟩
  case skp => rw [keyDown_eq, skipIf_advance_pc]
  case sknp => rw [keyDown_eq, ← decide_not, skipIf_advance_pc_not]

theorem memRead_clearFramebuffer_inside {s : State} {a : Nat} (ha : s.cfg.fbOrigin ≤ a) (ha' : a < s.cfg.memSize) :
    memRead (clearFramebuffer s).mem a = 0 := by
  obtain ⟨k, rfl⟩ := Nat.exists_eq_add_of_le ha
  have hk : k < s.cfg.memSize - s.cfg.fbOrigin := by omega
  rw [clearFramebuffer_mem, memRead_storeBytes_inside (by rwa [List.length_replicate]), List.getD_replicate 0 hk]

theorem memRead_clearFramebuffer_outside {s : State} {a : Nat} (ha : a < s.cfg.fbOrigin ∨ s.cfg.memSize ≤ a) :
    memRead (clearFramebuffer s).mem a = memRead s.mem a := by
  rw [clearFramebuffer_mem, memRead_storeBytes_outside]
  rw [List.length_replicate]
  omega

/-- Settles O31. -/
theorem clearZeroesFramebufferOnly : Obligations.ClearZeroesFramebufferOnly := by
  unfold Obligations.ClearZeroesFramebufferOnly
  intro s
  exact ⟨_, rfl, fun _ => memRead_clearFramebuffer_inside (s := advance s),
    fun _ => memRead_clearFramebuffer_outside (s := advance s), rfl, fun _ => rfl, rfl, ⟨rfl, rfl⟩, ⟨rfl, rfl⟩,
    ⟨rfl, rfl, rfl, rfl⟩, rfl, rfl⟩

end Sys2Proof.Machine
end

section
/-! PROOF. One DXYN whose sprite check succeeds (43_display_keypad.md R151, R154 (a) to (d)). -/

namespace Sys2Proof.Machine

/-- The state after a DXYN that does not fault. -/
def afterDraw (x y n : Nibble) (s : State) : State :=
  { s with
    pc := s.pc + 2
    mem := (blit s.cfg (drawnPixels s x y n) s.mem false).1
    v := s.v.set 15 (flagByte (blit s.cfg (drawnPixels s x y n) s.mem false).2) }

variable {x y n : Nibble} {s : State}

@[simp] theorem afterDraw_cfg : (afterDraw x y n s).cfg = s.cfg := rfl

@[simp] theorem afterDraw_i : (afterDraw x y n s).i = s.i := rfl

/-- The sprite check succeeds when there are no rows or all of them lie in memory (decisions D12, D14). -/
theorem exec_drw_of_inside (h : n.toNat = 0 ∨ s.i.toNat + n.toNat ≤ s.cfg.memSize) :
    exec (.drw x y n) s = .next (afterDraw x y n s) := by
  rcases execDrw_cases x y n s with ⟨hout, _⟩ | ⟨_, e⟩
  · omega
  · exact e

theorem getReg_afterDraw_of_ne {k : Nibble} (hk : k ≠ 15) : getReg (afterDraw x y n s) k = getReg s k :=
  (getReg_setReg s 15 k _).trans (if_neg hk)

theorem getReg_afterDraw_flag :
    getReg (afterDraw x y n s) 15 = flagByte (blit s.cfg (drawnPixels s x y n) s.mem false).2 :=
  (getReg_setReg s 15 15 _).trans (if_pos rfl)

/-- VF after a draw is 1 exactly when the draw collides. -/
theorem getReg_afterDraw_flag_eq_one_iff (hv : s.cfg.Valid) :
    getReg (afterDraw x y n s) 15 = 1 ↔ DrawCollides s x y n := by
  rw [getReg_afterDraw_flag, flagByte_eq_one, blit_drawnPixels_hit_iff s hv]

theorem getReg_afterDraw_flag_eq_zero_iff (hv : s.cfg.Valid) :
    getReg (afterDraw x y n s) 15 = 0 ↔ ¬ DrawCollides s x y n := by
  rw [getReg_afterDraw_flag, flagByte_eq_zero, ← blit_drawnPixels_hit_iff s hv, Bool.not_eq_true]

/-- A pixel after a draw: inverted once for each 1 bit of the sprite that lands on it. -/
theorem pixel_afterDraw (hv : s.cfg.Valid) {px py : Nat} (hx : px < s.cfg.fbWidth) :
    pixel s.cfg (afterDraw x y n s).mem px py =
      (pixel s.cfg s.mem px py ^^ decide (spriteVisits s x y n px py % 2 = 1)) := by
  rw [← visits_drawnPixels s hv x y n hx]
  exact pixel_blit s.cfg _ s.mem false px py

theorem memRead_afterDraw_outside (hv : s.cfg.Valid) {a : Nat} (ha : a < s.cfg.fbOrigin ∨ s.cfg.memSize ≤ a) :
    memRead (afterDraw x y n s).mem a = memRead s.mem a :=
  memRead_blit_drawnPixels_outside s hv x y n false ha

/-- What a draw leaves alone beside memory and VF. -/
theorem afterDraw_frame :
    (afterDraw x y n s).pc = s.pc + 2 ∧ SameRegsBut (fun k => k = 15) s (afterDraw x y n s)
      ∧ (afterDraw x y n s).i = s.i ∧ SameStack s (afterDraw x y n s) ∧ SameRest s (afterDraw x y n s) :=
  ⟨rfl, fun _ => getReg_afterDraw_of_ne, rfl, ⟨rfl, rfl⟩, ⟨rfl, rfl⟩, ⟨rfl, rfl, rfl, rfl⟩, rfl, rfl⟩

/-- Settles O32. -/
theorem drawInvertsLandedPixels : Obligations.DrawInvertsLandedPixels := by
  unfold Obligations.DrawInvertsLandedPixels
  intro x y n s hv hin
  refine ⟨afterDraw x y n s, exec_drw_of_inside hin, fun px py hx _ => pixel_afterDraw hv hx,
    fun a ha => memRead_afterDraw_outside hv ha, ?flag, afterDraw_frame⟩
  case flag =>
    by_cases h : DrawCollides s x y n
    · exact .inl ⟨(getReg_afterDraw_flag_eq_one_iff hv).mpr h, h⟩
    · exact .inr ⟨(getReg_afterDraw_flag_eq_zero_iff hv).mpr h, h⟩

/-- Settles O33: with no rows the blit's list of pixels is empty. -/
theorem drawNoRowsClearsFlag : Obligations.DrawNoRowsClearsFlag := by
  unfold Obligations.DrawNoRowsClearsFlag
  intro x y s
  obtain ⟨hpc, hregs, hi, hstack, hrest⟩ := afterDraw_frame (x := x) (y := y) (n := 0) (s := s)
  exact ⟨_, exec_drw_of_inside (.inl rfl), getReg_afterDraw_flag, hpc, hregs, hi, fun _ => rfl, hstack, hrest⟩

end Sys2Proof.Machine
end

section
/-! PROOF. The bits of one sprite land on distinct pixels when the framebuffer is tall enough (43_display_keypad.md R154
(e)). -/

namespace Sys2Proof.Machine

theorem spriteCells_eq_product (n : Nat) : spriteCells n = List.range n ×ˢ List.range 8 := rfl

theorem mem_spriteCells {n : Nat} {cell : Nat × Nat} : cell ∈ spriteCells n ↔ cell.1 < n ∧ cell.2 < 8 := by
  rw [spriteCells_eq_product, List.mem_product, List.mem_range, List.mem_range]

theorem nodup_spriteCells (n : Nat) : (spriteCells n).Nodup := List.nodup_range.product List.nodup_range

/-- Fewer than `w` neighbouring coordinates stay distinct when they wrap at `w`. -/
theorem eq_of_wrapped_eq {w a j k : Nat} (hj : j < w) (hk : k < w) (h : (a + j) % w = (a + k) % w) : j = k :=
  (Nat.ModEq.add_left_cancel' a h).eq_of_lt_of_lt hj hk

theorem eight_le_fbWidth {c : Config} (hv : c.Valid) : 8 ≤ c.fbWidth := by
  have hd := eight_dvd_fbWidth hv
  obtain ⟨_, _, _, hpos, _⟩ := hv
  exact Nat.le_of_dvd hpos hd

/-- Two cells of a sprite no taller than the framebuffer that land on one pixel are the same cell. -/
theorem cell_eq_of_cellLands {s : State} (hv : s.cfg.Valid) {n : Nat} (hn : n ≤ s.cfg.fbHeight) {x y : Nibble}
    {px py : Nat} {c d : Nat × Nat} (hc : c ∈ spriteCells n) (hd : d ∈ spriteCells n)
    (lc : cellLands s x y px py c = true) (ld : cellLands s x y px py d = true) : c = d := by
  have hw := eight_le_fbWidth hv
  rw [mem_spriteCells] at hc hd
  simp only [cellLands, Bool.and_eq_true, decide_eq_true_eq] at lc ld
  obtain ⟨⟨_, hcx⟩, hcy⟩ := lc
  obtain ⟨⟨_, hdx⟩, hdy⟩ := ld
  have hrow : c.1 = d.1 := eq_of_wrapped_eq (by omega) (by omega) (hcy.trans hdy.symm)
  have hcol : c.2 = d.2 := eq_of_wrapped_eq (by omega) (by omega) (hcx.trans hdx.symm)
  exact Prod.ext hrow hcol

theorem spriteVisits_le_one {s : State} (hv : s.cfg.Valid) {x y n : Nibble} (hn : n.toNat ≤ s.cfg.fbHeight)
    (px py : Nat) : spriteVisits s x y n px py ≤ 1 := by
  rw [spriteVisits, List.countP_eq_length_filter, ← List.toFinset_card_of_nodup ((nodup_spriteCells _).filter _),
    Finset.card_le_one]
  intro c hc d hd
  rw [List.mem_toFinset, List.mem_filter] at hc hd
  obtain ⟨hc, lc⟩ := hc
  obtain ⟨hd, ld⟩ := hd
  exact cell_eq_of_cellLands hv hn hc hd lc ld

/-- Settles O34: a sprite has at most fifteen rows. -/
theorem spriteBitsLandOnDistinctPixels : Obligations.SpriteBitsLandOnDistinctPixels := by
  unfold Obligations.SpriteBitsLandOnDistinctPixels
  intro x y n s px py hv hh
  exact spriteVisits_le_one hv (by omega) px py

end Sys2Proof.Machine
end

section
/-! PROOF. The same DXYN twice (43_display_keypad.md R154 (g)): the second draw sees the same sprite at the same place,
so it inverts the same pixels again. -/

namespace Sys2Proof.Machine

variable {x y n : Nibble} {s : State}

/-- A draw changes neither its sprite's bytes nor its coordinates when these lie outside what it writes. -/
theorem spriteVisits_afterDraw (hv : s.cfg.Valid) (hin : s.i.toNat + n.toNat ≤ s.cfg.fbOrigin) (hx : x ≠ 15)
    (hy : y ≠ 15) (px py : Nat) :
    spriteVisits (afterDraw x y n s) x y n px py = spriteVisits s x y n px py := by
  refine List.countP_congr fun cell hcell => ?_
  obtain ⟨hrow, _⟩ := mem_spriteCells.mp hcell
  rw [cellLands, cellLands, afterDraw_cfg, afterDraw_i, getReg_afterDraw_of_ne hx, getReg_afterDraw_of_ne hy,
    memRead_afterDraw_outside hv (.inl (by omega))]

theorem pixel_afterDraw_afterDraw (hv : s.cfg.Valid) (hin : s.i.toNat + n.toNat ≤ s.cfg.fbOrigin) (hx : x ≠ 15)
    (hy : y ≠ 15) {px py : Nat} (hpx : px < s.cfg.fbWidth) :
    pixel s.cfg (afterDraw x y n (afterDraw x y n s)).mem px py = pixel s.cfg s.mem px py := by
  have hsecond := pixel_afterDraw (x := x) (y := y) (n := n) (s := afterDraw x y n s) (py := py) hv hpx
  rw [afterDraw_cfg, spriteVisits_afterDraw hv hin hx hy, pixel_afterDraw hv hpx] at hsecond
  rw [hsecond, Bool.xor_assoc, Bool.xor_self, Bool.xor_false]

theorem sameMem_afterDraw_afterDraw (hv : s.cfg.Valid) (hin : s.i.toNat + n.toNat ≤ s.cfg.fbOrigin) (hx : x ≠ 15)
    (hy : y ≠ 15) : SameMem s (afterDraw x y n (afterDraw x y n s)) := by
  intro a
  by_cases ha : a < s.cfg.fbOrigin ∨ s.cfg.memSize ≤ a
  · exact (memRead_afterDraw_outside (s := afterDraw x y n s) hv ha).trans (memRead_afterDraw_outside hv ha)
  · exact memRead_of_pixels hv (fun px py hpx _ => pixel_afterDraw_afterDraw hv hin hx hy hpx) (by omega) (by omega)

/-- A bit that lands on a clear pixel makes the second draw collide: the first draw set the pixel, or two bits land on
it. -/
theorem drawCollides_afterDraw (hv : s.cfg.Valid) (hin : s.i.toNat + n.toNat ≤ s.cfg.fbOrigin) (hx : x ≠ 15)
    (hy : y ≠ 15) {px py : Nat} (hpx : px < s.cfg.fbWidth) (hpy : py < s.cfg.fbHeight)
    (hvisit : 1 ≤ spriteVisits s x y n px py) (hclear : pixel s.cfg s.mem px py = false) :
    DrawCollides (afterDraw x y n s) x y n := by
  refine ⟨px, py, hpx, hpy, ?_⟩
  rw [afterDraw_cfg, spriteVisits_afterDraw hv hin hx hy, pixel_afterDraw hv hpx, hclear, Bool.false_xor,
    decide_eq_true_eq]
  omega

/-- Settles O35. -/
theorem drawTwiceRestoresFramebuffer : Obligations.DrawTwiceRestoresFramebuffer := by
  unfold Obligations.DrawTwiceRestoresFramebuffer
  intro x y n s hv hin hx hy
  have hinside : s.i.toNat + n.toNat ≤ s.cfg.memSize := by
    obtain ⟨⟨_, hfb⟩, _⟩ := hv
    omega
  refine ⟨afterDraw x y n s, afterDraw x y n (afterDraw x y n s), exec_drw_of_inside (.inr hinside),
    exec_drw_of_inside (.inr hinside), sameMem_afterDraw_afterDraw hv hin hx hy, ?_⟩
  rintro ⟨px, py, hpx, hpy, hvisit, hclear⟩
  exact (getReg_afterDraw_flag_eq_one_iff (s := afterDraw x y n s) hv).mpr
    (drawCollides_afterDraw hv hin hx hy hpx hpy hvisit hclear)

end Sys2Proof.Machine
end

section
/-! PROOF. Index-memory transfers (44_index_memory_transfer.md R160 to R162): FX55 and FX65 inside memory, FX65 after
FX55, and the fault of a transfer that leaves memory. -/

namespace Sys2Proof.Machine

theorem memRead_storeBytes_regsUpTo_outside (m : Memory) {a b : Nat} (s : State) {x : Nibble}
    (hb : b < a ∨ a + (x.toNat + 1) ≤ b) : memRead (storeBytes m a (regsUpTo s x)) b = memRead m b :=
  memRead_storeBytes_outside (by rwa [length_regsUpTo])

theorem exec_loadRegs_of_lt {x : Nibble} {s : State} (h : s.i.toNat + x.toNat < s.cfg.memSize) :
    exec (.loadRegs x) s =
      .next { s with pc := s.pc + 2, v := fillRegs s.mem s.i.toNat s.v (x.toNat + 1) } := by
  rcases execLoadRegs_cases x s with ⟨hout, _⟩ | ⟨_, e⟩
  · omega
  · exact e

section
variable {m : Memory} {a : Nat} {s t : State} {x k : Nibble} (hv : t.v = fillRegs m a s.v (x.toNat + 1))
include hv

/-- A register up to V[X] after FX65 is its byte of memory (44_index_memory_transfer.md R162). -/
theorem getReg_of_fillRegs_of_le (hk : k.toNat ≤ x.toNat) : getReg t k = memRead m (a + k.toNat) := by
  rw [getReg, hv, getElem_fillRegs, if_pos (by omega)]

/-- A register above V[X] after FX65 is what it was. -/
theorem getReg_of_fillRegs_of_lt (hk : x.toNat < k.toNat) : getReg t k = getReg s k := by
  rw [getReg, hv, getElem_fillRegs, if_neg (by omega), getReg]

end

/-- Settles O37. -/
theorem storeRegistersWritesMemory : Obligations.StoreRegistersWritesMemory := by
  unfold Obligations.StoreRegistersWritesMemory
  intro x s hin
  exact ⟨_, exec_storeRegs_of_lt hin, fun _ => memRead_storeBytes_regsUpTo s.mem s.i.toNat s,
    fun _ => memRead_storeBytes_regsUpTo_outside s.mem s, rfl, fun _ => rfl, rfl, ⟨rfl, rfl⟩, ⟨rfl, rfl⟩,
    ⟨rfl, rfl, rfl, rfl⟩, rfl, rfl⟩

/-- Settles O38. -/
theorem loadRegistersReadsMemory : Obligations.LoadRegistersReadsMemory := by
  unfold Obligations.LoadRegistersReadsMemory
  intro x s hin
  exact ⟨_, exec_loadRegs_of_lt hin, fun _ => getReg_of_fillRegs_of_le rfl,
    fun _ hk => getReg_of_fillRegs_of_lt rfl (Nat.lt_of_not_le hk), rfl, rfl, fun _ => rfl, ⟨rfl, rfl⟩, ⟨rfl, rfl⟩,
    ⟨rfl, rfl, rfl, rfl⟩, rfl, rfl⟩

/-- Settles O40: FX65 reads the bytes that FX55 wrote, since it finds the same memory and the same I. -/
theorem storeThenLoadRestoresRegisters : Obligations.StoreThenLoadRestoresRegisters := by
  unfold Obligations.StoreThenLoadRestoresRegisters
  intro x s u hin
  obtain ⟨t, hstore, hstored, _, _, _, hi, _, _, ⟨_, _, _, hcfg⟩, _⟩ := storeRegistersWritesMemory x s hin
  refine ⟨t, hstore, fun hucfg humem hui => ?_⟩
  obtain ⟨w, hload, hloaded, _⟩ := loadRegistersReadsMemory x u (by rwa [hui, hi, hucfg, hcfg])
  refine ⟨w, hload, fun k hk => ?_⟩
  calc getReg w k
      _ = memRead u.mem (u.i.toNat + k.toNat) := hloaded k hk
      _ = memRead t.mem (s.i.toNat + k.toNat) := by rw [humem, hui, hi]
      _ = getReg s k := hstored k hk

theorem exec_storeRegs_of_le {x : Nibble} {s : State} (h : s.cfg.memSize ≤ s.i.toNat + x.toNat) :
    exec (.storeRegs x) s = .next (raiseFault (.outOfBoundsTransfer s.pc .write s.i (x.toNat + 1)) s) := by
  rcases execStoreRegs_cases x s with ⟨_, e⟩ | ⟨hin, _⟩
  · exact e
  · omega

theorem exec_loadRegs_of_le {x : Nibble} {s : State} (h : s.cfg.memSize ≤ s.i.toNat + x.toNat) :
    exec (.loadRegs x) s = .next (raiseFault (.outOfBoundsTransfer s.pc .read s.i (x.toNat + 1)) s) := by
  rcases execLoadRegs_cases x s with ⟨_, e⟩ | ⟨hin, _⟩
  · exact e
  · omega

/-- The sprite check fails when there are rows and not all of them lie in memory (decision D12). -/
theorem exec_drw_of_outside {x y n : Nibble} {s : State} (hn : 0 < n.toNat)
    (h : s.cfg.memSize < s.i.toNat + n.toNat) :
    exec (.drw x y n) s = .next (raiseFault (.outOfBoundsTransfer s.pc .read s.i n.toNat) s) := by
  rcases execDrw_cases x y n s with ⟨_, e⟩ | ⟨hin, _⟩
  · exact e
  · omega

/-- Settles O39: each check fails, and a raised fault changes RUN and FAULT alone. -/
theorem transfersOutsideMemoryFault : Obligations.TransfersOutsideMemoryFault := by
  unfold Obligations.TransfersOutsideMemoryFault
  refine ⟨fun x s h => ⟨?store, ?load⟩, fun x y n s hn h => ?draw⟩
  case store => rw [exec_storeRegs_of_le h, raiseFault_eq]
  case load => rw [exec_loadRegs_of_le h, raiseFault_eq]
  case draw => rw [exec_drw_of_outside hn h, raiseFault_eq]

end Sys2Proof.Machine
end

section
/-! SUPPORT. What each host transaction does, an equation per case: `load`, `halt`, `resume`, the step transaction, and
a sequence of transactions. -/

namespace Sys2Proof.Machine

variable {s t : State} {rom : List Byte}

/-! ## load -/

theorem loadOverflows_iff (rom : List Byte) (s : State) :
    loadOverflows rom s = true ↔ s.cfg.fbOrigin < s.cfg.progOrigin + rom.length := decide_eq_true_iff

theorem hostLoad_of_fits (h : s.cfg.progOrigin + rom.length ≤ s.cfg.fbOrigin) :
    hostLoad rom s = { s with mem := storeBytes s.mem s.cfg.progOrigin rom } :=
  if_neg fun hover => Nat.not_lt.mpr h ((loadOverflows_iff rom s).mp hover)

theorem hostLoad_of_overflow (h : s.cfg.fbOrigin < s.cfg.progOrigin + rom.length) : hostLoad rom s = s :=
  if_pos ((loadOverflows_iff rom s).mpr h)

/-- Whether the image fits or not, `load` changes nothing but memory. -/
theorem hostLoad_writesOnlyMem (rom : List Byte) (s : State) : ∃ m, hostLoad rom s = { s with mem := m } := by
  rcases Nat.lt_or_ge s.cfg.fbOrigin (s.cfg.progOrigin + rom.length) with h | h
  · exact ⟨s.mem, hostLoad_of_overflow h⟩
  · exact ⟨_, hostLoad_of_fits h⟩

theorem transact_load_of_fits (hv : s.cfg.Valid) (h : s.cfg.progOrigin + rom.length ≤ s.cfg.fbOrigin) :
    transact (.load rom) s = ({ s with mem := storeBytes s.mem s.cfg.progOrigin rom }, .ok) := by
  rw [transact_of_valid hv, perform, hostLoad_of_fits h, loadOverflows, decide_eq_false (Nat.not_lt.mpr h)]
  rfl

theorem transact_load_of_overflow (hv : s.cfg.Valid) (h : s.cfg.fbOrigin < s.cfg.progOrigin + rom.length) :
    transact (.load rom) s = (s, .loadOverflow rom.length) := by
  rw [transact_of_valid hv, perform, hostLoad_of_overflow h, if_pos ((loadOverflows_iff rom s).mpr h)]

/-! ## halt and resume -/

theorem hostHalt_of_running (h : s.run = .running) : hostHalt s = { s with run := .halted } := if_pos h

theorem hostHalt_of_not_running (h : s.run ≠ .running) : hostHalt s = s := if_neg h

theorem hostResume_of_halted (h : s.run = .halted) : hostResume s = { s with run := .running } := if_pos h

theorem hostResume_of_not_halted (h : s.run ≠ .halted) : hostResume s = s := if_neg h

/-! ## step -/

theorem step_of_not_running (hv : s.cfg.Valid) (hr : s.run ≠ .running) : step s = .next s := by
  rw [step, stepWith, if_pos hv, if_neg hr]

theorem transact_step_of_next (hv : s.cfg.Valid) (h : step s = .next t) :
    transact .step s = (t, stepStatus s t) := by
  rw [transact_of_valid hv, perform, hostStep, h]

theorem transact_step_of_not_running (hv : s.cfg.Valid) (hr : s.run ≠ .running) :
    transact .step s = (s, .notRunning) := by
  rw [transact_step_of_next hv (step_of_not_running hv hr), stepStatus, if_neg hr]

theorem transact_step_of_raiseFault {f : Fault} (hv : s.cfg.Valid) (hr : s.run = .running)
    (h : step s = .next (raiseFault f s)) : transact .step s = (raiseFault f s, .faulted f) := by
  rw [transact_step_of_next hv h, stepStatus_of_faulted hr (raiseFault_run s f) (raiseFault_fault s f)]

/-- A step that leaves RUN alone leaves it RUNNING, and replies Ok. -/
theorem transact_step_of_sameRun (hv : s.cfg.Valid) (hr : s.run = .running) (h : step s = .next t)
    (hsame : SameRun s t) : transact .step s = (t, .ok) := by
  rw [transact_step_of_next hv h, stepStatus_of_running hr (hsame.1.trans hr)]

/-! ## Sequences -/

/-- What every transaction of a sequence keeps, the sequence keeps. -/
theorem transactAll_keeps (P : State → Prop) (ts : List Transaction)
    (hkeep : ∀ tr ∈ ts, ∀ s, P s → P (transact tr s).1) (hs : P s) : P (transactAll ts s) := by
  induction ts generalizing s with
  | nil => exact hs
  | cons tr ts ih =>
    obtain ⟨hhead, htail⟩ := List.forall_mem_cons.mp hkeep
    exact ih htail (hhead s hs)

end Sys2Proof.Machine
end

section
/-! PROOF. A step answers a next state, and RUN moves as the run-state machine of 60_exceptions.md section 2 says. -/

namespace Sys2Proof.Machine

/-- Settles O11: outside RUNNING nothing happens, a fault of fetch or decode is a next state, and so is all that an
instruction does. -/
theorem stepAlwaysAnswersNext : Obligations.StepAlwaysAnswersNext := by
  unfold Obligations.StepAlwaysAnswersNext
  intro s hv
  rcases step_cases s with ⟨hn, _⟩ | ⟨_, ⟨_, e⟩ | ⟨_, f, _, _, e⟩ | ⟨_, i, _, _, e⟩⟩
  · exact absurd hv hn
  · exact ⟨_, e⟩
  · exact ⟨_, e⟩
  · obtain ⟨t, ht, _⟩ := exec_effect i s
    exact ⟨t, e.trans ht⟩

/-- Settles O46: a step that raises no fault leaves RUN alone. -/
theorem faultingStepChangesNothingElse : Obligations.FaultingStepChangesNothingElse := by
  unfold Obligations.FaultingStepChangesNothingElse
  intro s t h hr ht
  rcases step_fault_or_same h with ⟨_, f, hf, rfl⟩ | ⟨⟨hrun, _⟩, _⟩
  · exact ⟨f, hf, raiseFault_eq f s⟩
  · rw [hrun, hr] at ht
    cases ht

theorem hostHalt_eq (s : State) : hostHalt s = { s with run := if s.run = .running then .halted else s.run } := by
  by_cases h : s.run = .running
  · rw [hostHalt_of_running h, if_pos h]
  · rw [hostHalt_of_not_running h, if_neg h]

theorem hostResume_eq (s : State) :
    hostResume s = { s with run := if s.run = .halted then .running else s.run } := by
  by_cases h : s.run = .halted
  · rw [hostResume_of_halted h, if_pos h]
  · rw [hostResume_of_not_halted h, if_neg h]

/-- A step transaction of a RUNNING core stays RUNNING and replies Ok, or raises the fault it replies. -/
theorem transact_step_of_running {s : State} (hv : s.cfg.Valid) (hr : s.run = .running) :
    ((transact .step s).1.run = .running ∧ (transact .step s).2 = .ok)
      ∨ ∃ f, transact .step s = (raiseFault f s, .faulted f) := by
  obtain ⟨t, h⟩ := stepAlwaysAnswersNext s hv
  rcases step_fault_or_same h with ⟨_, f, _, rfl⟩ | ⟨hsame, _⟩
  · exact .inr ⟨f, transact_step_of_raiseFault hv hr h⟩
  · rw [transact_step_of_sameRun hv hr h hsame]
    exact .inl ⟨hsame.1.trans hr, rfl⟩

/-- The transactions that are not part of the run-state machine. -/
theorem perform_sameRun {tr : Transaction} (hreset : tr ≠ .reset) (hhalt : tr ≠ .halt) (hresume : tr ≠ .resume)
    (hstep : tr ≠ .step) (s : State) : SameRun s (perform tr s).1 := by
  cases tr with
  | reset => exact absurd rfl hreset
  | halt => exact absurd rfl hhalt
  | resume => exact absurd rfl hresume
  | step => exact absurd rfl hstep
  | load rom =>
    obtain ⟨m, e⟩ := hostLoad_writesOnlyMem rom s
    rw [perform, e]
    exact ⟨rfl, rfl⟩
  | readFramebuffer | setKeys _ | getTimers | tickTimers | rand _ | inspect => exact ⟨rfl, rfl⟩

/-- Settles O55. -/
theorem runStateMachine : Obligations.RunStateMachine := by
  unfold Obligations.RunStateMachine
  intro s hv
  refine ⟨?reset, ?halt, ?resume, fun hr => ?running, transact_step_of_not_running hv,
    fun tr hreset hhalt hresume hstep => ?other⟩
  case reset => rw [transact_of_valid hv, perform, hostReset_run]
  case halt => rw [transact_of_valid hv, perform, hostHalt_eq]
  case resume => rw [transact_of_valid hv, perform, hostResume_eq]
  case running =>
    refine (transact_step_of_running hv hr).imp_right fun ⟨f, e⟩ => ⟨f, ?_⟩
    rw [e]
    exact ⟨raiseFault_eq f s, rfl⟩
  case other =>
    rw [transact_of_valid hv]
    exact perform_sameRun hreset hhalt hresume hstep s

end Sys2Proof.Machine
end

section
/-! PROOF. Every transaction keeps the invariants of the machine, so every reachable state meets them (10_state.md R35,
R41; 20_memory.md R50; 60_exceptions.md R185). -/

namespace Sys2Proof.Machine

variable {s t : State}

/-- The three invariants' own step lemmas together; the configuration stays as it is. -/
theorem stateInv_step (hinv : StateInv s) (h : step s = .next t) : StateInv t := by
  obtain ⟨hv, hmem, hfault, hpc⟩ := hinv
  obtain ⟨_, _, _, hcfg⟩ := step_sameHost h
  exact ⟨hcfg ▸ hv, stepKeepsMemoryInv s t hmem h, stepKeepsFaultRecordInv s t hfault h,
    stepKeepsPcBoundInv s t hpc h⟩

theorem stateInv_hostStep (hinv : StateInv s) : StateInv (hostStep s).1 := by
  obtain ⟨t, h⟩ := stepAlwaysAnswersNext s hinv.1
  rw [hostStep, h]
  exact stateInv_step hinv h

/-- An image that fits ends at FB_ORIGIN at the latest, which lies in memory. -/
theorem stateInv_hostLoad (rom : List Byte) (hinv : StateInv s) : StateInv (hostLoad rom s) := by
  rcases Nat.lt_or_ge s.cfg.fbOrigin (s.cfg.progOrigin + rom.length) with h | h
  · rw [hostLoad_of_overflow h]
    exact hinv
  · rw [hostLoad_of_fits h]
    obtain ⟨hv, hmem, hfault, hpc⟩ := hinv
    have ⟨⟨_, hfb⟩, _⟩ := hv
    exact ⟨hv, memoryInv_storeBytes hmem (Nat.le_trans h (Nat.le_of_lt hfb)) rfl rfl, hfault, hpc⟩

/-- A core that is not FAULTED records no fault, and may move between RUNNING and HALTED. -/
theorem stateInv_setRun {r : RunState} (hr : r ≠ .faulted) (hs : s.run ≠ .faulted) (hinv : StateInv s) :
    StateInv { s with run := r } := by
  obtain ⟨hv, hmem, ⟨hnone, _⟩, hpc⟩ := hinv
  exact ⟨hv, hmem, ⟨fun _ => hnone hs, fun h => absurd h hr⟩, hpc⟩

theorem stateInv_hostHalt (hinv : StateInv s) : StateInv (hostHalt s) := by
  by_cases h : s.run = .running
  · rw [hostHalt_of_running h]
    exact stateInv_setRun (by decide) (by rw [h]; decide) hinv
  · rw [hostHalt_of_not_running h]
    exact hinv

theorem stateInv_hostResume (hinv : StateInv s) : StateInv (hostResume s) := by
  by_cases h : s.run = .halted
  · rw [hostResume_of_halted h]
    exact stateInv_setRun (by decide) (by rw [h]; decide) hinv
  · rw [hostResume_of_not_halted h]
    exact hinv

/-- The invariants speak of neither the random port, the keys nor the timers, which are all that the other
transactions write. -/
theorem perform_keeps_stateInv (tr : Transaction) (hinv : StateInv s) : StateInv (perform tr s).1 := by
  cases tr with
  | reset => exact stateInv_resetWith hinv.1
  | load rom => exact stateInv_hostLoad rom hinv
  | step => exact stateInv_hostStep hinv
  | halt => exact stateInv_hostHalt hinv
  | resume => exact stateInv_hostResume hinv
  | readFramebuffer | setKeys _ | getTimers | tickTimers | rand _ | inspect => exact hinv

/-- Settles O52. -/
theorem transactionKeepsInv : Obligations.TransactionKeepsInv := by
  unfold Obligations.TransactionKeepsInv
  intro tr s hinv
  rw [transact_of_valid hinv.1]
  exact perform_keeps_stateInv tr hinv

/-- Settles O53: the invariants hold at reset, and every transaction keeps them. -/
theorem reachableStatesMeetInv : Obligations.ReachableStatesMeetInv := by
  unfold Obligations.ReachableStatesMeetInv
  rintro s ⟨c, s₀, ts, hcreate, rfl⟩
  obtain ⟨hc, rfl⟩ := (createCore_eq_next_iff c s₀).mp hcreate
  exact transactAll_keeps StateInv ts (fun tr _ => transactionKeepsInv tr) (stateInv_resetWith hc)

end Sys2Proof.Machine
end

section
/-! PROOF. FAULTED is left by reset alone (60_exceptions.md R175). -/

namespace Sys2Proof.Machine

/-- `t` is FAULTED, with the fault record, the registers and the call stack of `s`. -/
def FaultedAs (s t : State) : Prop :=
  t.run = .faulted ∧ t.fault = s.fault ∧ t.v = s.v ∧ t.i = s.i ∧ t.pc = s.pc ∧ t.stack = s.stack ∧ t.sp = s.sp

/-- Only reset touches a FAULTED core: no step, halt or resume acts on it, and the other transactions write memory, the
keys, the timers and the random port. -/
theorem perform_keeps_faultedAs {s t : State} {tr : Transaction} (hv : t.cfg.Valid) (hreset : tr ≠ .reset)
    (h : FaultedAs s t) : FaultedAs s (perform tr t).1 := by
  have hnot : t.run ≠ .running ∧ t.run ≠ .halted := by
    rw [h.1]
    decide
  cases tr with
  | reset => exact absurd rfl hreset
  | load rom =>
    obtain ⟨m, e⟩ := hostLoad_writesOnlyMem rom t
    rw [perform, e]
    exact h
  | step =>
    rw [← transact_of_valid hv, transact_step_of_not_running hv hnot.1]
    exact h
  | halt =>
    rw [perform, hostHalt_of_not_running hnot.1]
    exact h
  | resume =>
    rw [perform, hostResume_of_not_halted hnot.2]
    exact h
  | readFramebuffer | setKeys _ | getTimers | tickTimers | rand _ | inspect => exact h

theorem transact_keeps_faultedAs {s t : State} {tr : Transaction} (hreset : tr ≠ .reset) (h : FaultedAs s t) :
    FaultedAs s (transact tr t).1 := by
  rcases transact_cases tr t with ⟨hv, e⟩ | ⟨_, e⟩ <;> rw [e]
  · exact perform_keeps_faultedAs hv hreset h
  · exact h

/-- Settles O56: every transaction of the sequence keeps `FaultedAs`. -/
theorem faultedUntilReset : Obligations.FaultedUntilReset := by
  unfold Obligations.FaultedUntilReset
  intro ts s hf hreset
  exact transactAll_keeps (FaultedAs s) ts (fun tr htr _ => transact_keeps_faultedAs (hreset tr htr))
    ⟨hf, rfl, rfl, rfl, rfl, rfl, rfl⟩

end Sys2Proof.Machine
end

section
/-! PROOF. The fault kinds, their codes, and when a step and `load` raise each (60_exceptions.md R177, R180). -/

namespace Sys2Proof.Machine

variable {s : State}

/-- An instruction raises a fault of the kind its conditions name, or none and leaves RUN and FAULT alone. -/
theorem exec_raises (i : Instr) (s : State) :
    (∃ f, exec i s = .next (raiseFault f s) ∧ instrRaises i s = some (faultKind f)) ∨
      ∃ t, exec i s = .next t ∧ SameRun s t ∧ instrRaises i s = none := by
  cases i with
  | ret =>
    rcases execRet_cases s with ⟨h, e⟩ | ⟨h, e⟩
    · exact .inl ⟨_, e, if_pos h⟩
    · exact .inr ⟨_, e, ⟨rfl, rfl⟩, if_neg (Nat.ne_of_gt h)⟩
  | call nnn =>
    rcases execCall_cases nnn s with ⟨h, e⟩ | ⟨h, e⟩
    · exact .inl ⟨_, e, if_pos h⟩
    · exact .inr ⟨_, e, ⟨rfl, rfl⟩, if_neg (Nat.ne_of_lt h)⟩
  | storeRegs x =>
    rcases execStoreRegs_cases x s with ⟨h, e⟩ | ⟨h, e⟩
    · exact .inl ⟨_, e, if_pos h⟩
    · exact .inr ⟨_, e, ⟨rfl, rfl⟩, if_neg (Nat.not_le.mpr h)⟩
  | loadRegs x =>
    rcases execLoadRegs_cases x s with ⟨h, e⟩ | ⟨h, e⟩
    · exact .inl ⟨_, e, if_pos h⟩
    · exact .inr ⟨_, e, ⟨rfl, rfl⟩, if_neg (Nat.not_le.mpr h)⟩
  | drw x y n =>
    rcases execDrw_cases x y n s with ⟨h, e⟩ | ⟨h, e⟩
    · exact .inl ⟨_, e, if_pos h⟩
    · exact .inr ⟨_, e, ⟨rfl, rfl⟩, if_neg h⟩
  | cls | sys _ | jp _ | seImm _ _ | sneImm _ _ | seReg _ _ _ | ldImm _ _ | addImm _ _ | ldReg _ _ | orReg _ _
  | andReg _ _ | xorReg _ _ | addReg _ _ | subReg _ _ | shr _ _ | subnReg _ _ | shl _ _ | sneReg _ _ _ | ldI _
  | jpV0 _ | rnd _ _ | skp _ | sknp _ | addI _ => exact .inr ⟨_, rfl, ⟨rfl, rfl⟩, rfl⟩

/-! ## stepRaises, an equation per case, in the order of R180 -/

theorem stepRaises_of_fetch (h : s.cfg.memSize ≤ s.pc.toNat + 1) : stepRaises s = some .outOfBoundsFetch := if_pos h

theorem stepRaises_of_decodeWord_error {r : DecodeReject} (hp : s.pc.toNat + 1 < s.cfg.memSize)
    (h : decodeWord (wordOfBytes (memRead s.mem s.pc.toNat) (memRead s.mem (s.pc.toNat + 1))) = .error r) :
    stepRaises s = some .unrecognizedInstruction := by
  rw [stepRaises, if_neg (Nat.not_le.mpr hp)]
  simp only [h]

theorem stepRaises_of_decodeWord_ok {i : Instr} (hp : s.pc.toNat + 1 < s.cfg.memSize)
    (h : decodeWord (wordOfBytes (memRead s.mem s.pc.toNat) (memRead s.mem (s.pc.toNat + 1))) = .ok i) :
    stepRaises s = instrRaises i s := by
  rw [stepRaises, if_neg (Nat.not_le.mpr hp)]
  simp only [h]

/-- The fetch fails at PC or at PC + 1 (20_memory.md R51, R52). -/
theorem fetchInstr_outOfBounds (h : s.cfg.memSize ≤ s.pc.toNat + 1) :
    ∃ a, fetchInstr s = .error (.outOfBoundsFetch s.pc a) := by
  rcases Nat.lt_or_eq_of_le h with hlt | heq
  · exact ⟨_, fetchInstr_of_memSize_le_pc (Nat.le_of_lt_succ hlt)⟩
  · exact ⟨_, fetchInstr_of_pc_last heq.symm⟩

/-- A step of a RUNNING core raises a fault of the kind its conditions name, or none and leaves RUN and FAULT alone. -/
theorem step_raises (hv : s.cfg.Valid) (hr : s.run = .running) :
    (∃ f, step s = .next (raiseFault f s) ∧ stepRaises s = some (faultKind f)) ∨
      ∃ t, step s = .next t ∧ SameRun s t ∧ stepRaises s = none := by
  rcases Nat.lt_or_ge (s.pc.toNat + 1) s.cfg.memSize with hp | hp
  · cases hd : decodeWord (wordOfBytes (memRead s.mem s.pc.toNat) (memRead s.mem (s.pc.toNat + 1))) with
    | error r =>
      exact .inl ⟨_, step_of_fetchInstr_error hv hr (fetchInstr_of_decodeWord_error hp hd),
        stepRaises_of_decodeWord_error hp hd⟩
    | ok i =>
      rw [step_of_fetchInstr_ok hv hr (fetchInstr_of_decodeWord hp hd), stepRaises_of_decodeWord_ok hp hd]
      exact exec_raises i s
  · obtain ⟨a, e⟩ := fetchInstr_outOfBounds hp
    exact .inl ⟨_, step_of_fetchInstr_error hv hr e, stepRaises_of_fetch hp⟩

theorem replyCode_load (rom : List Byte) (hv : s.cfg.Valid) :
    replyCode (transact (.load rom) s).2 = if s.cfg.fbOrigin < s.cfg.progOrigin + rom.length then 6 else 0 := by
  split
  · next h =>
    rw [transact_load_of_overflow hv h]
    rfl
  · next h =>
    rw [transact_load_of_fits hv (Nat.not_lt.mp h)]
    rfl

/-- Settles O60: a fault that a step raises is its reply and its record. -/
theorem faultKindsAndCodes : Obligations.FaultKindsAndCodes := by
  unfold Obligations.FaultKindsAndCodes
  refine ⟨⟨rfl, rfl, rfl, rfl, rfl, rfl, rfl⟩, fun s hv hr => ?_, fun rom s => replyCode_load rom⟩
  rcases step_raises hv hr with ⟨f, e, hkind⟩ | ⟨t, e, hsame, hnone⟩
  · rw [transact_step_of_raiseFault hv hr e, hkind]
    refine ⟨rfl, fun k hk => ⟨f, rfl, rfl, ?_⟩⟩
    rw [← hk]
    rfl
  · rw [transact_step_of_sameRun hv hr e hsame, hnone]
    exact ⟨rfl, fun k hk => by cases hk⟩

end Sys2Proof.Machine
end

section
/-! PROOF. What the host reads and writes between steps: `load` (60_exceptions.md R186, D21) and the operations of R188
to R192. -/

namespace Sys2Proof.Machine

/-- Settles O57: the image is one run of stored bytes. -/
theorem loadCopiesImageOrNothing : Obligations.LoadCopiesImageOrNothing := by
  unfold Obligations.LoadCopiesImageOrNothing
  intro rom s hv
  refine ⟨fun hfits => ?_, transact_load_of_overflow hv⟩
  rw [transact_load_of_fits hv hfits]
  refine ⟨rfl, fun k hk => ?_, fun _ => memRead_storeBytes_outside, rfl⟩
  rw [memRead_storeBytes_inside hk, List.getD_eq_getElem rom 0 hk]

/-- A timer stops at 0 (decision D20). -/
theorem toNat_tick (t : Byte) : (tick t).toNat = t.toNat - 1 := by
  rw [tick]
  split
  · next h =>
    rw [h]
    rfl
  · bv_omega

theorem length_framebufferBytes (s : State) : (framebufferBytes s).length = s.cfg.memSize - s.cfg.fbOrigin :=
  length_loadBytes _ _ _

theorem getElem_framebufferBytes (s : State) (k : Nat) (h : k < (framebufferBytes s).length) :
    (framebufferBytes s)[k] = memRead s.mem (s.cfg.fbOrigin + k) := getElem_loadBytes _ _ _ k h

/-- Settles O58. -/
theorem hostReadsAndWrites : Obligations.HostReadsAndWrites := by
  unfold Obligations.HostReadsAndWrites
  intro s hv
  simp only [transact_of_valid hv]
  exact ⟨fun _ => rfl, rfl, fun _ => rfl, rfl, toNat_tick s.dt, toNat_tick s.st, rfl, framebufferBytes s, rfl,
    length_framebufferBytes s, getElem_framebufferBytes s⟩

end Sys2Proof.Machine
end

section
/-! PROOF. What `reset` leaves (70_reset_and_hazards.md R200, 10_state.md R38, D17 to D19). -/

namespace Sys2Proof.Machine

/-- PROG_ORIGIN fits in PC: it lies below MEM_SIZE (00_scope.md R7). -/
theorem toNat_hostReset_pc {s : State} (hv : s.cfg.Valid) : (hostReset s).pc.toNat = s.cfg.progOrigin := by
  have hm := memSize_le hv
  obtain ⟨⟨hprog, hfb⟩, _⟩ := hv
  rw [hostReset_pc, BitVec.toNat_ofNat]
  omega

theorem getReg_hostReset (s : State) (k : Nibble) : getReg (hostReset s) k = 0 := by
  rw [getReg]
  exact Vector.getElem_replicate k.isLt

theorem getElem?_hostReset_stack (s : State) {k : Nat} (hk : k < 16) : (hostReset s).stack[k]? = some 0 := by
  rw [hostReset_stack, Vector.getElem?_replicate, if_pos hk]

theorem memRead_hostReset (s : State) (a : Nat) : memRead (hostReset s).mem a = 0 := memRead_nil a

/-- Settles O59: `reset` does not look at the run state, and PROG_ORIGIN fits in PC. -/
theorem resetLeavesResetValues : Obligations.ResetLeavesResetValues := by
  unfold Obligations.ResetLeavesResetValues
  intro s hv
  rw [transact_of_valid hv, perform]
  exact ⟨toNat_hostReset_pc hv, getReg_hostReset s, hostReset_i s, rfl, fun _ => getElem?_hostReset_stack s,
    memRead_hostReset s, hostReset_dt s, hostReset_st s, hostReset_keys s, hostReset_run s, hostReset_fault s,
    hostReset_cfg s⟩

end Sys2Proof.Machine
end

section
/-! PROOF. A step outside RUNNING (60_exceptions.md R172, decision D18). -/

namespace Sys2Proof.Machine

/-- Settles O9: outside RUNNING the step neither fetches nor executes, and its status is NotRunning. -/
theorem stepOutsideRunningChangesNothing : Obligations.StepOutsideRunningChangesNothing := by
  unfold Obligations.StepOutsideRunningChangesNothing
  intro s hv hr
  exact ⟨step_of_not_running hv hr, transact_step_of_not_running hv hr⟩

end Sys2Proof.Machine
end
